-- ==== Sys2Proof/Word.lean ====
section
/-! DEFINITION. The two bit-vector types of the block (00_scope.md rule R8, section 6): every value is an unsigned
32-bit word, and a command is one 36-bit word. -/

namespace Sys2Proof

/-- A value of the block: an unsigned 32-bit word, bit 0 least significant (R8, R190). -/
abbrev Word := BitVec 32

/-- A command word as the host presents it: bits 35 to 32 the opcode, bits 31 to 0 the operand (R72). -/
abbrev CommandWord := BitVec 36

end Sys2Proof
end

