-- ==== Sys2Proof/Syntax.lean ====
section
/-! DEFINITION. The twelve commands of the block, one constructor per row of spec/opcode_table.json
(30_encoding.md rules R72 and R73). Operands are typed at exactly the width the spec gives them (R74, R75), so a
command as syntax has no reserved bit left to check. -/

namespace Sys2Proof

/-- The commands, in the order of the opcode map of R72. -/
inductive Instr where
  | setpoly (p : Word)     -- SETPOLY p   (R100)
  | setstate (v : Word)    -- SETSTATE s  (R104)
  | step                   -- STEP        (R120)
  | syncf (x : Word)       -- SYNCF x     (R140)
  | syncb (x : Word)       -- SYNCB x     (R143)
  | crcin (b : Bool)       -- CRCIN b     (R160)
  | crcout                 -- CRCOUT      (R163)
  | rdstate                -- RDSTATE     (R180)
  | rdpoly                 -- RDPOLY      (R181)
  | rdmask                 -- RDMASK      (R182)
  | rdhbit                 -- RDHBIT      (R183)
  | rddegr                 -- RDDEGR      (R184)
  deriving DecidableEq, Repr

end Sys2Proof
end

