-- ==== Sys2Proof/WellFormed.lean ====
section
/-! DEFINITION. Which command words are well formed, written from the enumeration of 30_encoding.md rule R77 and
not from the decoder of R73, so that the two can be held against each other. The three checks are the three clauses
of R77. An `Instr` needs no check of its own: its operands are typed at the widths of R74 and R75. -/

namespace Sys2Proof

/-- First clause of R77: the opcode is none of 0x0, 0xD, 0xE, 0xF. -/
def opcodeAssigned (w : CommandWord) : Bool :=
  let op := w.toNat / 2 ^ 32
  decide (1 ≤ op ∧ op ≤ 12)

/-- Second clause of R77: STEP, CRCOUT and the five RD* commands carry an operand field of zeros. -/
def unusedOperandZero (w : CommandWord) : Bool :=
  let op := w.toNat / 2 ^ 32
  let arg := w.toNat % 2 ^ 32
  decide ((op = 3 ∨ (7 ≤ op ∧ op ≤ 12)) → arg = 0)

/-- Third clause of R77: CRCIN carries zeros above its operand bit. -/
def crcOperandIsBit (w : CommandWord) : Bool :=
  let op := w.toNat / 2 ^ 32
  let arg := w.toNat % 2 ^ 32
  decide (op = 6 → arg < 2)

/-- A command word is legal when no clause of R77 makes it illegal. -/
def legalWord (w : CommandWord) : Bool :=
  opcodeAssigned w && unusedOperandZero w && crcOperandIsBit w

end Sys2Proof
end

