-- ==== Sys2Proof/Decode.lean ====
section
/-! DEFINITION. The decoder of 30_encoding.md rule R73, total on all 2^36 command words, and after it the encoder of
the same command format (R72), the opcode table as rows of mask and pattern, and the form in which the host's table
numbers an instruction's bits. -/

namespace Sys2Proof

/-- The opcode field `cmd[35:32]` (R72). -/
def wordOp (w : CommandWord) : BitVec 4 := w.extractLsb' 32 4

/-- The operand field `cmd[31:0]` (R72). -/
def wordArg (w : CommandWord) : Word := w.extractLsb' 0 32

/-- Why a word is illegal. The spec has one verdict, "illegal" (R73); the two names say which part of R77 applies,
and nothing in the machine depends on which it is (DESIGN CHOICE, safe: assumption 14). -/
inductive IllegalWord where
  /-- The opcode is 0x0, 0xD, 0xE or 0xF. -/
  | reservedOpcode
  /-- A reserved operand bit is 1. -/
  | reservedBits
  deriving DecidableEq, Repr

/-- A command that takes no operand: its whole operand field is reserved and must be 0 (R75). -/
def decodeNoOperand (i : Instr) (arg : Word) : Except IllegalWord Instr :=
  if arg = 0#32 then .ok i else .error .reservedBits

/-- CRCIN's operand: bit 0 is the data bit, bits 31 to 1 are reserved and must be 0 (R75). -/
def decodeCrcOperand (arg : Word) : Except IllegalWord Instr :=
  if arg.extractLsb' 1 31 = 0#31 then .ok (.crcin (arg.getLsbD 0)) else .error .reservedBits

/-- The decoder of R73. It looks only at the command word, never at the block's state. -/
def decode (w : CommandWord) : Except IllegalWord Instr :=
  match wordOp w with
  | 0x1#4 => .ok (.setpoly (wordArg w))
  | 0x2#4 => .ok (.setstate (wordArg w))
  | 0x3#4 => decodeNoOperand .step (wordArg w)
  | 0x4#4 => .ok (.syncf (wordArg w))
  | 0x5#4 => .ok (.syncb (wordArg w))
  | 0x6#4 => decodeCrcOperand (wordArg w)
  | 0x7#4 => decodeNoOperand .crcout (wordArg w)
  | 0x8#4 => decodeNoOperand .rdstate (wordArg w)
  | 0x9#4 => decodeNoOperand .rdpoly (wordArg w)
  | 0xA#4 => decodeNoOperand .rdmask (wordArg w)
  | 0xB#4 => decodeNoOperand .rdhbit (wordArg w)
  | 0xC#4 => decodeNoOperand .rddegr (wordArg w)
  | _ => .error .reservedOpcode

/-- The opcode number of a command (the map of R72). -/
def opcodeOf : Instr → BitVec 4
  | .setpoly _ => 0x1#4
  | .setstate _ => 0x2#4
  | .step => 0x3#4
  | .syncf _ => 0x4#4
  | .syncb _ => 0x5#4
  | .crcin _ => 0x6#4
  | .crcout => 0x7#4
  | .rdstate => 0x8#4
  | .rdpoly => 0x9#4
  | .rdmask => 0xA#4
  | .rdhbit => 0xB#4
  | .rddegr => 0xC#4

/-- The operand field of a command (the column "use of `arg`" of R72): the operand, or zeros where none is taken. -/
def operandOf : Instr → Word
  | .setpoly p => p
  | .setstate v => v
  | .syncf x => x
  | .syncb x => x
  | .crcin b => (BitVec.ofBool b).zeroExtend 32
  | .step => 0#32
  | .crcout => 0#32
  | .rdstate => 0#32
  | .rdpoly => 0#32
  | .rdmask => 0#32
  | .rdhbit => 0#32
  | .rddegr => 0#32

/-- The command word of a command: the opcode above the operand (R72). -/
def encode (i : Instr) : CommandWord := opcodeOf i ++ operandOf i

/-- The mnemonic of a command (R72, R79). -/
def mnemonicOf : Instr → String
  | .setpoly _ => "SETPOLY"
  | .setstate _ => "SETSTATE"
  | .step => "STEP"
  | .syncf _ => "SYNCF"
  | .syncb _ => "SYNCB"
  | .crcin _ => "CRCIN"
  | .crcout => "CRCOUT"
  | .rdstate => "RDSTATE"
  | .rdpoly => "RDPOLY"
  | .rdmask => "RDMASK"
  | .rdhbit => "RDHBIT"
  | .rddegr => "RDDEGR"

/-- One row of the opcode table: a word belongs to the row when its masked bits are the pattern. -/
structure TableRow where
  mnemonic : String
  mask : CommandWord
  pattern : CommandWord
  deriving DecidableEq, Repr

/-- The twelve rows of spec/opcode_table.json, its "mask" and "match" values as they stand there. -/
def opcodeTable : List TableRow :=
  [ ⟨"SETPOLY", 0xF00000000#36, 0x100000000#36⟩,
    ⟨"SETSTATE", 0xF00000000#36, 0x200000000#36⟩,
    ⟨"STEP", 0xFFFFFFFFF#36, 0x300000000#36⟩,
    ⟨"SYNCF", 0xF00000000#36, 0x400000000#36⟩,
    ⟨"SYNCB", 0xF00000000#36, 0x500000000#36⟩,
    ⟨"CRCIN", 0xFFFFFFFFE#36, 0x600000000#36⟩,
    ⟨"CRCOUT", 0xFFFFFFFFF#36, 0x700000000#36⟩,
    ⟨"RDSTATE", 0xFFFFFFFFF#36, 0x800000000#36⟩,
    ⟨"RDPOLY", 0xFFFFFFFFF#36, 0x900000000#36⟩,
    ⟨"RDMASK", 0xFFFFFFFFF#36, 0xA00000000#36⟩,
    ⟨"RDHBIT", 0xFFFFFFFFF#36, 0xB00000000#36⟩,
    ⟨"RDDEGR", 0xFFFFFFFFF#36, 0xC00000000#36⟩ ]

/-- A word belongs to a row of the table. -/
def TableRow.covers (r : TableRow) (w : CommandWord) : Bool := w &&& r.mask == r.pattern

/-- A word of the opcode table as a command word: the table numbers its 36 bits as R72 does (bit 0 least
significant), a command word travels whole and in parallel (R52), and bits above the table's `nbits` are 0.
A number of more than 36 bits is no command word (DESIGN CHOICE, safe: assumption 10). -/
def tableCommandWord (nbits w : Nat) : Option CommandWord :=
  if w % 2 ^ nbits < 2 ^ 36 then some (BitVec.ofNat 36 (w % 2 ^ nbits)) else none

/-- The command the decoder reads from a word of the opcode table; `none` where it refuses. -/
def decodeTableWord (nbits w : Nat) : Option Instr :=
  match tableCommandWord nbits w with
  | none => none
  | some cw =>
    match decode cw with
    | .ok i => some i
    | .error _ => none

end Sys2Proof
end

