-- ==== Sys2Proof/Machine/State.lean ====
section
/-! DEFINITION. The state of one block: the six fields of 10_state.md rule R20, and beside them the two fields in
which the model holds what crosses the boundary at the transaction level of 00_scope.md rule R6: the response the
last transaction produced, and what the host does next. -/

namespace Sys2Proof.Machine

/-- What the host does to the block (R7: present a command, or assert reset; nothing else). -/
inductive HostAction where
  /-- The host presents a command word on `cmd` (R71). -/
  | command (w : CommandWord)
  /-- The host asserts `rst` (R250). -/
  | reset
  deriving DecidableEq, Repr

/-- The four faults of R220, by name. -/
inductive FaultCause where
  /-- SETPOLY with operand 0. -/
  | invalidPolynomial
  /-- One of the six other mutating commands on an Unconfigured block. -/
  | unconfiguredUse
  /-- SETSTATE with a value that masks to 0. -/
  | invalidState
  /-- A command word that decodes to "illegal". -/
  | illegalCommand
  deriving DecidableEq, Repr

/-- Why `exec` has no next state. A fault of the BLOCK is no such stop: it is a next state with the `fault` field
written (R223). -/
inductive Fault where
  /-- Raised by every meaning when the block is already Faulted: "a Faulted machine state has no successor under
  `exec`" (R224). Safe: the hardware executes nothing there either (DESIGN CHOICE: assumption 4). `step` never reaches it, because a Faulted block
  does not accept the word. -/
  | halted
  deriving DecidableEq, Repr

/-- Why an instruction has no meaning. -/
inductive Refusal where
  /-- Answered by an arm of `exec` for an instruction not modelled yet; safe, since nothing follows from it. Every
  arm has its meaning, so no arm answers it. -/
  | notModelled (mnemonic : String)
  deriving DecidableEq, Repr

end Sys2Proof.Machine

namespace Sys2Proof.Machine

/-- The state of one instance of the block. -/
structure State where
  /-- The shift register (R21). -/
  state : Word
  /-- The feedback tap mask; 0 marks the Unconfigured state (R22). -/
  poly : Word
  /-- `degree` ones from bit 0 (R23). -/
  mask : Word
  /-- The bit length of `poly`, 0 to 32, in six bits (R24). -/
  degree : BitVec 6
  /-- `(mask >> 1) + 1`, the top bit in use (R25). -/
  highBit : Word
  /-- 0, or the cause code of the fault that stopped the block (R26). -/
  fault : BitVec 3
  /-- The model's own field: the response the transaction just made, if it made one (`rsp_valid` and `rsp_data` of
  R70; DESIGN CHOICE, safe: assumption 3). -/
  rsp : Option Word
  /-- The model's own field: what the host does next, in order (R56; DESIGN CHOICE, safe: assumption 2). -/
  host : List HostAction
  deriving DecidableEq, Repr

/-- The block right after reset: every field zero (R35), no response on the port, and no host action waiting. -/
def State.reset : State where
  state := 0#32
  poly := 0#32
  mask := 0#32
  degree := 0#6
  highBit := 0#32
  fault := 0#3
  rsp := none
  host := []

end Sys2Proof.Machine
end

