-- ==== Sys2Proof/Machine/Operands.lean ====
section
/-! DEFINITION. The operand and response forms of 30_encoding.md rules R74 to R76 and the two derived word
functions of 00_scope.md section 6, `bitlen` and `ones`. An operand reaches a meaning as the decoder typed it: a
whole word, or one bit. -/

namespace Sys2Proof.Machine

/-- One plus the index of the highest set bit of `v` among bits `n - 1` down to 0, or 0 if none is set. -/
def bitlenBelow (v : Word) : Nat → Nat
  | 0 => 0
  | n + 1 => if v.getLsbD n then n + 1 else bitlenBelow v n

/-- `bitlen(v)`: one plus the index of the highest set bit, and `bitlen(0) = 0` (00_scope.md section 6). -/
def bitlen (v : Word) : Nat := bitlenBelow v 32

/-- `ones(n)`: bits `n - 1` down to 0 set and no other; as a number `2^n - 1` (00_scope.md section 6). -/
def ones (n : Nat) : Word := BitVec.ofNat 32 (2 ^ n - 1)

/-- The formula of `highBit`, `(mask >> 1) + 1` (R25, R192). -/
def topBit (mask : Word) : Word := (mask >>> 1) + 1#32

/-- A one-bit result as a response: zero-extended, in bit 0 (R76). -/
def bitResponse (b : Bool) : Word := (BitVec.ofBool b).zeroExtend 32

/-- `degree` as a response: zero-extended (R76). -/
def degreeResponse (d : BitVec 6) : Word := d.zeroExtend 32

/-- The response of a command whose operation returns nothing (R76). -/
def voidResponse : Word := 0#32

end Sys2Proof.Machine
end

