-- ==== Sys2Proof/Machine/Flags.lean ====
section
/-! DEFINITION. The block has no condition codes (10_state.md rule R28). What it has instead is the derived truth
value `configured`, the Faulted condition with its cause codes (60_exceptions.md rule R220), the three logical states
of R233, and the two fault ports of 30_encoding.md rule R70. -/

namespace Sys2Proof.Machine

/-- `configured`: not stored, defined as `poly != 0` (R28). -/
def isConfigured (s : State) : Bool := s.poly != 0#32

/-- The Faulted condition, `fault != 0` (R28); also the `fault` port (R70). -/
def isFaulted (s : State) : Bool := s.fault != 0#3

/-- The `fault_cause` port shows the `fault` field (R70). -/
def faultCausePort (s : State) : BitVec 3 := s.fault

/-- The cause codes of R220. -/
def causeCode : FaultCause → BitVec 3
  | .invalidPolynomial => 1#3
  | .unconfiguredUse => 2#3
  | .invalidState => 3#3
  | .illegalCommand => 4#3

/-- The three logical states of R233. -/
inductive Logical where
  | unconfigured | configured | faulted
  deriving DecidableEq, Repr

/-- Which logical state a block is in: conditions on the fields, nothing stored (R233). -/
def logical (s : State) : Logical :=
  if isFaulted s then .faulted else if isConfigured s then .configured else .unconfigured

end Sys2Proof.Machine
end

