-- ==== Sys2Proof/Machine/Ops.lean ====
section
/-! DEFINITION. The named operations over the block's fields that every meaning is built from: the field updates,
completing with a response, entering a fault (60_exceptions.md rule R223), the tests a command makes first (R224,
R226), reset (70_reset_and_hazards.md rule R250), and the GF(2) shift engine (45_arithmetic_laws.md). -/

namespace Sys2Proof.Machine

/-- What an execution answers. -/
abbrev Result := Host.Outcome State Fault Refusal

/-! ### Field updates -/

/-- Write the data register. -/
def loadState (v : Word) (s : State) : State := { s with state := v }

/-- Write the control register and everything derived from it (the five writes of R100). -/
def loadPoly (p : Word) (s : State) : State :=
  { s with
    poly := p
    mask := ones (bitlen p)
    degree := BitVec.ofNat 6 (bitlen p)
    state := ones (bitlen p)
    highBit := topBit (ones (bitlen p)) }

/-- Put a response on the response port. -/
def answer (v : Word) (s : State) : State := { s with rsp := some v }

/-- The response pulse is over: it lasts for the transaction that made it (R70). -/
def endPulse (s : State) : State := { s with rsp := none }

/-- Fault entry (R223): the cause code is latched, no other field changes, and there is no response
(what the source fields hold then is decision D8: assumption 5). -/
def latchFault (c : FaultCause) (s : State) : State := { s with fault := causeCode c, rsp := none }

/-- Reset (R250): all six fields zero and no response. What the host does next is the host's, and stays. -/
def clearFields (s : State) : State := { State.reset with host := s.host }

/-- The host has done the first thing on its list. -/
def withHost (h : List HostAction) (s : State) : State := { s with host := h }

/-! ### How a command ends -/

/-- A command that completes answers exactly one response (`respond(v)` of 00_scope.md section 6). -/
def respond (v : Word) (s : State) : Result := .next (answer v s)

/-- A command that raises a fault (`raise F` of 00_scope.md section 6): a next state, the block halted by R223. It is
applied to the state the command started from, so no write of that command takes effect. -/
def raiseFault (c : FaultCause) (s : State) : Result := .next (latchFault c s)

/-- A Faulted block has no successor under `exec` (R224). -/
def whenRunning (s : State) (k : Result) : Result := if isFaulted s then .fault .halted else k

/-- The Configured test of the six mutating commands other than SETPOLY (R220, R226). -/
def whenConfigured (s : State) (k : Result) : Result := if isConfigured s then k else raiseFault .unconfiguredUse s

/-- Executing a word that decodes to "illegal" (R73, R220). -/
def execIllegal (s : State) : Result := whenRunning s (raiseFault .illegalCommand s)

/-- The next state of a result, where there is one. -/
def nextOf : Result → Option State
  | .next s => some s
  | .fault _ => none
  | .refused _ => none

/-! ### The shift engine -/

/-- One position of the engine: shift right, and XOR the polynomial if the deciding bit is 1 (R120, R140, R160). -/
def shiftXor (poly : Word) (feedback : Bool) (v : Word) : Word :=
  if feedback then (v >>> 1) ^^^ poly else v >>> 1

/-- The step map `step(s)` of 45_arithmetic_laws.md: the bit that leaves decides the feedback. -/
def stepWord (poly v : Word) : Word := shiftXor poly (v.getLsbD 0) v

/-- `n` applications of the step map. -/
def stepTimes (poly : Word) : Nat → Word → Word
  | 0, v => v
  | n + 1, v => stepTimes poly n (stepWord poly v)

/-- The loop of SYNCF (R140) after its iterations `i = 0` to `n - 1`, bit `i` of `x` deciding iteration `i`.
No run has `n` above 32; there operand bits from 32 up read as 0 (DESIGN CHOICE, unsafe: assumption 12). -/
def syncfLoop (poly x v : Word) : Nat → Word
  | 0 => v
  | n + 1 => shiftXor poly (x.getLsbD n) (syncfLoop poly x v n)

/-- One iteration of SYNCB (R143): conditional XOR, then an unconditional left shift truncated to 32 bits. -/
def syncbIter (poly x h v : Word) : Word :=
  (if x &&& h ≠ 0#32 then v ^^^ poly else v) <<< 1

/-- The loop of SYNCB (R143): while the probe `h` is not 0, one iteration, then halve the probe. The first argument
bounds the iterations; a 32-bit probe is 0 after at most 32 halvings, so a bound of 32 never cuts the loop short
(DEDUCED, safe: assumption 13). -/
def syncbLoop (poly x : Word) : Nat → Word → Word → Word
  | 0, _, v => v
  | n + 1, h, v => if h = 0#32 then v else syncbLoop poly x n (h >>> 1) (syncbIter poly x h v)

end Sys2Proof.Machine
end

