-- ==== Sys2Proof/Machine/Accessors.lean ====
section
/-! DEFINITION. The five accessors (44_accessors.md): each answers one field and writes none, in the Unconfigured
and the Configured state alike (R185). -/

namespace Sys2Proof.Machine

/-- RDSTATE (R180). -/
def execRdstate (s : State) : Result := whenRunning s (respond s.state s)

/-- RDPOLY (R181). -/
def execRdpoly (s : State) : Result := whenRunning s (respond s.poly s)

/-- RDMASK (R182). -/
def execRdmask (s : State) : Result := whenRunning s (respond s.mask s)

/-- RDHBIT (R183). -/
def execRdhbit (s : State) : Result := whenRunning s (respond s.highBit s)

/-- RDDEGR (R184). -/
def execRddegr (s : State) : Result := whenRunning s (respond (degreeResponse s.degree) s)

end Sys2Proof.Machine
end

