-- ==== Sys2Proof/Machine/Configuration.lean ====
section
/-! DEFINITION. The configuration commands SETPOLY and SETSTATE (40_configuration.md). -/

namespace Sys2Proof.Machine

/-- SETPOLY p (R100): a non-zero polynomial replaces all five source fields, 0 raises InvalidPolynomial. -/
def execSetpoly (p : Word) (s : State) : Result :=
  whenRunning s (if p = 0#32 then raiseFault .invalidPolynomial s else respond voidResponse (loadPoly p s))

/-- SETSTATE v (R104): the masked operand is loaded; a masked operand of 0 raises InvalidState, and the Configured
test comes first (R106). -/
def execSetstate (v : Word) (s : State) : Result :=
  whenRunning s (whenConfigured s
    (if v &&& s.mask = 0#32 then raiseFault .invalidState s
     else respond voidResponse (loadState (v &&& s.mask) s)))

end Sys2Proof.Machine
end

