-- ==== Sys2Proof/Machine/Crc.lean ====
section
/-! DEFINITION. The CRC commands CRCIN and CRCOUT (43_crc.md). -/

namespace Sys2Proof.Machine

/-- CRCIN b (R160): the engine's step with the feedback decided by bit 0 XOR the data bit. -/
def execCrcin (b : Bool) (s : State) : Result :=
  whenRunning s (whenConfigured s
    (respond voidResponse (loadState (shiftXor s.poly (s.state.getLsbD 0 ^^ b) s.state) s)))

/-- CRCOUT (R163): emit bit 0 and shift right with no feedback. -/
def execCrcout (s : State) : Result :=
  whenRunning s (whenConfigured s
    (respond (bitResponse (s.state.getLsbD 0)) (loadState (s.state >>> 1) s)))

end Sys2Proof.Machine
end

