-- ==== Sys2Proof/Machine/Generation.lean ====
section
/-! DEFINITION. The generation command STEP (41_generation.md). -/

namespace Sys2Proof.Machine

/-- STEP (R120): emit bit 0, shift right, and XOR the polynomial if the emitted bit is 1. -/
def execStep (s : State) : Result :=
  whenRunning s (whenConfigured s
    (respond (bitResponse (s.state.getLsbD 0)) (loadState (stepWord s.poly s.state) s)))

end Sys2Proof.Machine
end

