-- ==== Sys2Proof/Machine/Synchronization.lean ====
section
/-! DEFINITION. The synchronization commands SYNCF and SYNCB (42_synchronization.md). Each is one atomic command:
its loop and temporaries are invisible (R55). -/

namespace Sys2Proof.Machine

/-- SYNCF x (R140): `degree` iterations of the engine from the present state, driven by the bits of `x`. -/
def execSyncf (x : Word) (s : State) : Result :=
  whenRunning s (whenConfigured s
    (respond voidResponse (loadState (syncfLoop s.poly x s.state s.degree.toNat) s)))

/-- SYNCB x (R143): the division run in reverse from 0, then XOR with the operand and truncate to the mask. -/
def execSyncb (x : Word) (s : State) : Result :=
  whenRunning s (whenConfigured s
    (respond voidResponse
      (loadState ((syncbLoop s.poly x 32 s.highBit 0#32 ^^^ x) &&& s.mask) s)))

end Sys2Proof.Machine
end

