-- ==== Sys2Proof/Machine/Dispatch.lean ====
section
/-! DEFINITION. `exec` of 00_scope.md rule R6: one accepted, legal command, executed whole. One arm per command. -/

namespace Sys2Proof.Machine

def exec (i : Instr) (s : State) : Host.Outcome State Fault Refusal :=
  match i with
  | .setpoly p => Sys2Proof.Machine.execSetpoly p s
  | .setstate v => Sys2Proof.Machine.execSetstate v s
  | .step => Sys2Proof.Machine.execStep s
  | .syncf x => Sys2Proof.Machine.execSyncf x s
  | .syncb x => Sys2Proof.Machine.execSyncb x s
  | .crcin b => Sys2Proof.Machine.execCrcin b s
  | .crcout => Sys2Proof.Machine.execCrcout s
  | .rdstate => Sys2Proof.Machine.execRdstate s
  | .rdpoly => Sys2Proof.Machine.execRdpoly s
  | .rdmask => Sys2Proof.Machine.execRdmask s
  | .rdhbit => Sys2Proof.Machine.execRdhbit s
  | .rddegr => Sys2Proof.Machine.execRddegr s

end Sys2Proof.Machine
end

