-- ==== Sys2Proof/Machine/Accept.lean ====
section
/-! DEFINITION. What a host action does to the block: an accepted command word is decoded and executed
(30_encoding.md rule R73), a Faulted block accepts no word (60_exceptions.md rule R224), reset zeroes the six fields
(70_reset_and_hazards.md rule R250). -/

namespace Sys2Proof.Machine

/-- An accepted command word: decoding comes first, so IllegalCommand has priority over every other fault (R226). -/
def acceptWord (w : CommandWord) (s : State) : Result :=
  match decode w with
  | .ok i => exec i s
  | .error _ => execIllegal s

/-- A presented command word: a Faulted block keeps `cmd_ready` at 0, so the word is not accepted, nothing changes and
no response is made (R224; DESIGN CHOICE: assumption 4). -/
def presentWord (w : CommandWord) (s : State) : Result :=
  if isFaulted s then .next (endPulse s) else acceptWord w s

/-- One action of the host (R7). -/
def hostAct : HostAction → State → Result
  | .command w, s => presentWord w s
  | .reset, s => .next (clearFields s)

/-- Present this word before whatever the host does next; a number that is no command word presents nothing. -/
def presentFirst (cw : Option CommandWord) (s : State) : State :=
  match cw with
  | some w => withHost (.command w :: s.host) s
  | none => s

end Sys2Proof.Machine
end

