-- ==== Sys2Proof/Machine/Step.lean ====
section
/-! DEFINITION. One step of the machine: one action of the host, executed wholly before the next (20_memory.md rules
R55 and R56). With no action waiting the block is idle and holds its six fields (60_exceptions.md rule R235). The
block fetches nothing (10_state.md rule R27): its instructions are the words the host presents. -/

namespace Sys2Proof.Machine

/-- One transaction. -/
def step (s : State) : Host.Outcome State Fault Refusal :=
  match s.host with
  | [] => .next (endPulse s)
  | a :: rest => hostAct a (withHost rest s)

/-- The host presents this word of the opcode table next (DESIGN CHOICE, safe: assumption 2). -/
def State.withFetchWord (s : State) (nbits w : Nat) : State :=
  presentFirst (tableCommandWord nbits w) s

end Sys2Proof.Machine
end

