-- ==== Sys2Proof/Config.lean ====
section
/-! DEFINITION. What one block fixes and the spec leaves open (00_scope.md rule R8): the catalogue of preset
polynomials, of which the source prints two values, the latency of a command, and what the block holds and shows
before its first reset. All are opaque, so nothing proved about the block can rest on a value of theirs. None is read
by any command: the catalogue is host-side data (92_eei_decisions.md D14), the latency counts clock edges of the port
realisation only (D12), and the host presents no command before the first reset (70_reset_and_hazards.md rule R252). -/

namespace Sys2Proof

/-- The names of the catalogue (R8, R79): one preset polynomial for each of eight degrees. -/
inductive CatalogueName where
  | g7 | g8 | g15 | g16 | g23 | g24 | g31 | g32
  deriving DecidableEq, Repr

/-- The degree each catalogue name carries (R253). -/
def CatalogueName.degree : CatalogueName → Nat
  | .g7 => 7
  | .g8 => 8
  | .g15 => 15
  | .g16 => 16
  | .g23 => 23
  | .g24 => 24
  | .g31 => 31
  | .g32 => 32

/-- The constants the source does not print (`CATALOGUE` of R8, D14, N1): open, so free
(DESIGN CHOICE, safe: assumption 9). -/
opaque Config.openCatalogue : CatalogueName → Word

/-- The catalogue: G7 = 0x41 and G8 = 0x8E are the source's, the other six are open (R8). -/
def Config.catalogue : CatalogueName → Word
  | .g7 => 0x41#32
  | .g8 => 0x8E#32
  | n => Config.openCatalogue n

/-- Clock cycles beyond the first from a command's acceptance to its completion, by opcode and degree: open, so
free (`LAT` of R8, R262, D12; DESIGN CHOICE, safe: assumption 8). -/
opaque Config.extraLatency : BitVec 4 → BitVec 6 → Nat

/-- The latency `LAT(op, degree)`, at least 1 (R262). -/
def Config.lat (op : BitVec 4) (degree : BitVec 6) : Nat := Config.extraLatency op degree + 1

/-! What the block holds and shows at the `n`-th instant before its first reset: unspecified, so free (R252, U5;
DESIGN CHOICE, safe: assumption 7). First the six fields of R20, then the output ports of R70. -/

opaque Config.unresetState : Nat → Word

opaque Config.unresetPoly : Nat → Word

opaque Config.unresetMask : Nat → Word

opaque Config.unresetDegree : Nat → BitVec 6

opaque Config.unresetHighBit : Nat → Word

opaque Config.unresetFault : Nat → BitVec 3

opaque Config.unresetCmdReady : Nat → Bool

opaque Config.unresetRspValid : Nat → Bool

opaque Config.unresetRspData : Nat → Word

opaque Config.unresetFaultPort : Nat → Bool

opaque Config.unresetFaultCausePort : Nat → BitVec 3

end Sys2Proof
end

