-- ==== Sys2Proof/Machine/Ports.lean ====
section
/-! DEFINITION. The ports and handshake of 30_encoding.md rules R70 and R71, one clock edge at a time: the one
realisation of the transaction-level machine that the spec describes (00_scope.md rule R6). `step` does not use this
file and holds no time (70_reset_and_hazards.md rule R262); what it adds is what only a clocked view shows: `rst`
sampled at an edge, `cmd_ready`, a command in progress, and its being abandoned by a reset (R250). The edges at which things happen are a DESIGN CHOICE
(assumption 11). -/

namespace Sys2Proof.Machine

/-- The input ports as sampled at one rising edge of `clk` (R70). -/
structure PortsIn where
  rst : Bool
  cmdValid : Bool
  cmd : CommandWord
  deriving DecidableEq, Repr

/-- A command accepted and not yet completed: its word, and how many more edges pass before the completing one. -/
structure InProgress where
  word : CommandWord
  left : Nat
  deriving DecidableEq, Repr

/-- The block between two edges: its fields, and the command in progress, of which there is at most one (R71). -/
structure Clocked where
  block : State
  busy : Option InProgress
  deriving DecidableEq, Repr

/-- `cmd_ready`: 0 while `rst` is 1, while the block is Faulted, and while a command is in progress (R71). -/
def cmdReady (rst : Bool) (c : Clocked) : Bool := !rst && !isFaulted c.block && c.busy.isNone

/-- A command is accepted at an edge with `rst == 0`, `cmd_valid == 1` and `cmd_ready == 1` (R71). -/
def acceptsAt (i : PortsIn) (c : Clocked) : Bool := i.cmdValid && cmdReady i.rst c

/-- The completing edge: the fields are updated as the command's rule says, all at once (R71). -/
def completeWord (w : CommandWord) (s : State) : State :=
  match nextOf (acceptWord w s) with
  | some t => t
  | none => endPulse s

/-- What one edge does to a block that is not being reset. -/
def runEdge (i : PortsIn) (c : Clocked) : Clocked :=
  match c.busy with
  | some ⟨w, 0⟩ => { block := completeWord w c.block, busy := none }
  | some ⟨w, n + 1⟩ => { block := endPulse c.block, busy := some ⟨w, n⟩ }
  | none =>
    if acceptsAt i c then
      { block := endPulse c.block, busy := some ⟨i.cmd, Config.lat (wordOp i.cmd) c.block.degree - 1⟩ }
    else { block := endPulse c.block, busy := none }

/-- One rising edge of `clk`. Reset is synchronous, may come at any time, and abandons a command in progress without
a response and without any partial effect (R250). -/
def edge (i : PortsIn) (c : Clocked) : Clocked :=
  if i.rst then { block := clearFields c.block, busy := none } else runEdge i c

/-- The edges of a list of sampled inputs, first to last. -/
def edges : List PortsIn → Clocked → Clocked
  | [], c => c
  | i :: is, c => edges is (edge i c)

/-- The `rsp_valid` port (R70). -/
def rspValid (c : Clocked) : Bool := c.block.rsp.isSome

end Sys2Proof.Machine
end

