-- ==== Sys2Proof/Machine/PowerUp.lean ====
section
/-! DEFINITION. The block from power-up on (70_reset_and_hazards.md rule R252): before the first edge with `rst == 1`
its six fields and its output ports hold free values, fresh at every edge, and from that edge on it is the clocked
block of Ports.lean. Beside it stand the two obligations R252 puts on the host, as conditions on what the host
drives. The free values are opaque constants of Config (DESIGN CHOICE, safe: assumption 7). -/

namespace Sys2Proof.Machine

/-- The output ports of R70. `rspData` is `none` where U11 gives `rsp_data` no value. -/
structure PortsOut where
  cmdReady : Bool
  rspValid : Bool
  rspData : Option Word
  fault : Bool
  faultCause : BitVec 3
  deriving DecidableEq, Repr

/-- A block with power applied: either no reset edge has come yet and it stands at the `n`-th of its unspecified
instants, or it has been reset and has a state. -/
inductive Powered where
  | unreset (n : Nat)
  | initialised (c : Clocked)
  deriving DecidableEq, Repr

/-- The fields at an instant before the first reset: any values (R252, U5). -/
def unresetBlock (n : Nat) : State where
  state := Config.unresetState n
  poly := Config.unresetPoly n
  mask := Config.unresetMask n
  degree := Config.unresetDegree n
  highBit := Config.unresetHighBit n
  fault := Config.unresetFault n
  rsp := none
  host := []

/-- The output ports at an instant before the first reset: any values, and not tied to the fields (R252, U5). -/
def unresetPorts (n : Nat) : PortsOut where
  cmdReady := Config.unresetCmdReady n
  rspValid := Config.unresetRspValid n
  rspData := some (Config.unresetRspData n)
  fault := Config.unresetFaultPort n
  faultCause := Config.unresetFaultCausePort n

/-- The output ports of a block that has been reset (R70, R71), in a cycle with this `rst`. -/
def clockedPorts (rst : Bool) (c : Clocked) : PortsOut where
  cmdReady := cmdReady rst c
  rspValid := rspValid c
  rspData := c.block.rsp
  fault := isFaulted c.block
  faultCause := faultCausePort c.block

/-- The fields of a block with power applied. -/
def poweredBlock : Powered → State
  | .unreset n => unresetBlock n
  | .initialised c => c.block

/-- The output ports of a block with power applied, in a cycle with this `rst`. -/
def poweredPorts (rst : Bool) : Powered → PortsOut
  | .unreset n => unresetPorts n
  | .initialised c => clockedPorts rst c

/-- One rising edge of `clk`. The first one with `rst == 1` is a reset of the unspecified block (R250, R252); until
then the values stay unspecified, whatever the host does. -/
def poweredEdge (i : PortsIn) : Powered → Powered
  | .unreset n => if i.rst then .initialised (edge i ⟨unresetBlock n, none⟩) else .unreset (n + 1)
  | .initialised c => .initialised (edge i c)

/-- The edges of a list of sampled inputs, first to last. -/
def poweredEdges : List PortsIn → Powered → Powered
  | [], p => p
  | i :: is, p => poweredEdges is (poweredEdge i p)

/-- The handshake of R71 at an edge: `rst == 0`, `cmd_valid == 1` and `cmd_ready == 1`. -/
def poweredAccepts (i : PortsIn) (p : Powered) : Bool := !i.rst && i.cmdValid && (poweredPorts i.rst p).cmdReady

/-- R252's obligations on the host at the ports: no command is presented up to and at the first edge with
`rst == 1`, so that a whole reset edge precedes the first command. -/
def obeysPowerUp : List PortsIn → Bool
  | [] => true
  | i :: is => !i.cmdValid && (i.rst || obeysPowerUp is)

/-- The same obligation on the host's list of transactions: a reset comes before any command. -/
def resetComesFirst : List HostAction → Bool
  | [] => true
  | .reset :: _ => true
  | .command _ :: _ => false

end Sys2Proof.Machine
end

