-- ==== Sys2Proof/Machine/Sequence.lean ====
section
/-! DEFINITION. Command sequences, for the rules that speak of several commands in a row: the fold of `exec` over a
list of commands with the responses in order (20_memory.md rule R56), and the packing of response bits into a number,
first bit lowest (R52). -/

namespace Sys2Proof.Machine

/-- Execute the commands in order, each on the state the one before left, and give the responses in order with the
final state; `none` if some command does not complete (a claim about a sequence takes "no fault occurs" as premise
or proves it, R224). -/
def runAll : List Instr → State → Option (List Word × State)
  | [], s => some ([], s)
  | i :: is, s =>
    match nextOf (exec i s) with
    | none => none
    | some t =>
      match t.rsp with
      | none => none
      | some v => (runAll is t).map fun r => (v :: r.1, r.2)

/-- The host presents these commands, in order, and then does `rest`. -/
def presented (is : List Instr) (rest : List HostAction) : List HostAction :=
  (is.map fun i => HostAction.command (encode i)) ++ rest

/-- The bits `x[0]`, ..., `x[n-1]` as `n` one-bit responses in that order. -/
def bitResponses (x : Word) (n : Nat) : List Word := (List.range n).map fun i => bitResponse (x.getLsbD i)

/-- The commands that feed the bits `x[0]`, ..., `x[n-1]` to CRCIN in that order. -/
def crcinBits (x : Word) (n : Nat) : List Instr := (List.range n).map fun i => Instr.crcin (x.getLsbD i)

end Sys2Proof.Machine
end

