-- ==== Sys2Proof/Safety.lean ====
section
/-! DEFINITION. The conditions claims are stated in: a block that runs, a block that is Configured and runs, the
structural invariant of 10_state.md rule R32, and the maximal-length property of 41_generation.md rule R123. A safe
run is one in which no fault occurs: the Faulted block is never a successful end (60_exceptions.md rule R224). -/

namespace Sys2Proof.Machine

/-- The block is not Faulted. -/
abbrev Running (s : State) : Prop := s.fault = 0#3

/-- The block is Configured and not Faulted (R233). -/
abbrev Ready (s : State) : Prop := s.fault = 0#3 ∧ s.poly ≠ 0#32

/-- The first line of R32. -/
abbrev UnconfiguredFields (s : State) : Prop :=
  s.poly = 0#32 ∧ s.mask = 0#32 ∧ s.degree = 0#6 ∧ s.highBit = 0#32 ∧ s.state = 0#32

/-- The second line of R32. -/
abbrev ConfiguredFields (s : State) : Prop :=
  s.poly ≠ 0#32 ∧ s.degree.toNat = bitlen s.poly ∧ s.mask = ones s.degree.toNat ∧
    s.highBit = 1#32 <<< (s.degree.toNat - 1) ∧ s.poly.getLsbD (s.degree.toNat - 1) = true ∧
    s.poly &&& s.mask = s.poly ∧ s.state &&& s.mask = s.state

/-- The structural invariant of R32: one of its two lines holds, whether or not the block is Faulted. -/
abbrev FieldsInv (s : State) : Prop := UnconfiguredFields s ∨ ConfiguredFields s

/-- `fault` holds 0 or one of the four cause codes; 5, 6 and 7 are never written (R220). -/
abbrev FaultCodeKnown (s : State) : Prop := s.fault.toNat ≤ 4

/-- The six fields of R20 of two states agree. -/
abbrev SameFields (s t : State) : Prop :=
  t.state = s.state ∧ t.poly = s.poly ∧ t.mask = s.mask ∧ t.degree = s.degree ∧ t.highBit = s.highBit ∧
    t.fault = s.fault

/-- From the state SETPOLY leaves, the step map first returns to it after exactly `2^d - 1` steps (R123, R197). -/
abbrev MaximalLength (p : Word) : Prop :=
  p ≠ 0#32 ∧ stepTimes p (2 ^ bitlen p - 1) (ones (bitlen p)) = ones (bitlen p) ∧
    ∀ n, 0 < n → n < 2 ^ bitlen p - 1 → stepTimes p n (ones (bitlen p)) ≠ ones (bitlen p)

/-- What decision D14 requires of a catalogue entry: its degree, and maximal length. -/
abbrev CatalogueEntryMeets (n : CatalogueName) : Prop :=
  bitlen (Config.catalogue n) = n.degree ∧ MaximalLength (Config.catalogue n)

end Sys2Proof.Machine
end

