-- ==== Sys2Proof/Certificates/Slice0/Obligations.lean ====
section
/-! DEFINITION. The statements about the block, each a `Prop`, written from the numbered rules of spec/. Where a rule
says what the fields become, the statement writes the new fields out instead of naming the model's operation. In
every statement `s.rsp` is how the model holds a response: `some v` for `respond(v)`, `none` for no response
(assumption 3). -/

open Sys2Proof Sys2Proof.Machine

/-- A word as a polynomial over GF(2), bit `j` the coefficient of `x^j` (the reading of 45_arithmetic_laws.md R196). -/
noncomputable def Sys2Proof.gf2Poly (v : Word) : Polynomial (ZMod 2) :=
  ∑ j ∈ Finset.range 32, if v.getLsbD j then Polynomial.X ^ j else 0

/-! ### Encoding (30_encoding.md) -/

/-- The command words of the listing in R79 and the neighbouring illegal words of 95_test_vectors.md section 2.7. That
an illegal word is refused is R73's; under which of the two names `reservedOpcode` and `reservedBits` it is refused is
the model's own choice (assumption 14). -/
def Obligations.DecodeListedWords : Prop :=
  decode 0x10000008E#36 = .ok (.setpoly 0x8E#32) ∧ decode 0x200000049#36 = .ok (.setstate 0x49#32) ∧
  decode 0x300000000#36 = .ok .step ∧ decode 0x4000000A5#36 = .ok (.syncf 0xA5#32) ∧
  decode 0x5000000C3#36 = .ok (.syncb 0xC3#32) ∧ decode 0x600000001#36 = .ok (.crcin true) ∧
  decode 0x600000000#36 = .ok (.crcin false) ∧ decode 0x700000000#36 = .ok .crcout ∧
  decode 0x800000000#36 = .ok .rdstate ∧ decode 0x900000000#36 = .ok .rdpoly ∧
  decode 0xA00000000#36 = .ok .rdmask ∧ decode 0xB00000000#36 = .ok .rdhbit ∧
  decode 0xC00000000#36 = .ok .rddegr ∧
  decode 0x000000000#36 = .error .reservedOpcode ∧ decode 0xD00000000#36 = .error .reservedOpcode ∧
  decode 0x300000001#36 = .error .reservedBits ∧ decode 0x600000002#36 = .error .reservedBits ∧
  decode 0x900000100#36 = .error .reservedBits

/-- R72, R73: decoding the word of a command gives the command back, with every operand at every value; and a word
that decodes to a command is that command's word, so no bit of it is dropped. -/
def Obligations.DecodeEncodeAgree : Prop :=
  (∀ i : Instr, decode (encode i) = .ok i) ∧ (∀ (w : CommandWord) (i : Instr), decode w = .ok i → encode i = w)

/-- R73: the case table of `decode`, on every opcode and operand field, and what executing a word does. -/
def Obligations.DecodeCaseTable : Prop :=
  (∀ (op : BitVec 4) (arg : Word), (decode (op ++ arg)).toOption =
    if op = 0x1#4 then some (.setpoly arg)
    else if op = 0x2#4 then some (.setstate arg)
    else if op = 0x3#4 then (if arg = 0#32 then some .step else none)
    else if op = 0x4#4 then some (.syncf arg)
    else if op = 0x5#4 then some (.syncb arg)
    else if op = 0x6#4 then (if arg.toNat / 2 = 0 then some (.crcin (arg.getLsbD 0)) else none)
    else if op = 0x7#4 then (if arg = 0#32 then some .crcout else none)
    else if op = 0x8#4 then (if arg = 0#32 then some .rdstate else none)
    else if op = 0x9#4 then (if arg = 0#32 then some .rdpoly else none)
    else if op = 0xA#4 then (if arg = 0#32 then some .rdmask else none)
    else if op = 0xB#4 then (if arg = 0#32 then some .rdhbit else none)
    else if op = 0xC#4 then (if arg = 0#32 then some .rddegr else none)
    else none) ∧
  (∀ (w : CommandWord) (s : State), Running s → (decode w).toOption = none →
    acceptWord w s = .next { s with fault := 4#3, rsp := none }) ∧
  (∀ (w : CommandWord) (s : State) (i : Instr), (decode w).toOption = some i → acceptWord w s = exec i s)

/-- R77: the illegal words are exactly those of the enumeration, the all-zero word among them, and each raises
IllegalCommand when executed. -/
def Obligations.IllegalWordsExactly : Prop :=
  (∀ (op : BitVec 4) (arg : Word), (decode (op ++ arg)).toOption = none ↔
    (op = 0x0#4 ∨ op = 0xD#4 ∨ op = 0xE#4 ∨ op = 0xF#4) ∨
    ((op = 0x3#4 ∨ op = 0x7#4 ∨ op = 0x8#4 ∨ op = 0x9#4 ∨ op = 0xA#4 ∨ op = 0xB#4 ∨ op = 0xC#4) ∧ arg ≠ 0#32) ∨
    (op = 0x6#4 ∧ arg >>> 1 ≠ 0#32)) ∧
  (decode 0#36).toOption = none ∧
  (∀ w : CommandWord, (decode w).toOption = none ↔ legalWord w = false) ∧
  (∀ (w : CommandWord) (s : State), Running s → legalWord w = false →
    acceptWord w s = .next { s with fault := 4#3, rsp := none })

/-- The opcode table's masks and patterns agree with the decoder: a word in a row decodes to that row's command, and
a word that decodes lies in exactly one row. -/
def Obligations.TableRowsDecode : Prop :=
  (∀ r ∈ opcodeTable, ∀ w : CommandWord, r.covers w = true →
    ∃ i, decode w = .ok i ∧ mnemonicOf i = r.mnemonic) ∧
  (∀ (w : CommandWord) (i : Instr), decode w = .ok i →
    (opcodeTable.filter fun r => r.covers w).map TableRow.mnemonic = [mnemonicOf i])

/-! ### The step of the machine (20_memory.md, 70_reset_and_hazards.md) -/

/-- A step of a running block whose host presents a word that decodes to `i` is `exec` of `i`, the word taken off the
host's list (R56, R73). The list is the model's own field (assumption 2). -/
def Obligations.StepRunsDecoded : Prop :=
  ∀ (s : State) (w : CommandWord) (rest : List HostAction) (i : Instr),
    s.host = .command w :: rest → Running s → decode w = .ok i → step s = exec i { s with host := rest }

/-- The other steps: an idle block holds its fields (R235), an illegal word faults (R73), a Faulted block does not
accept a word (R224), reset zeroes the fields (R250). That the unaccepted word leaves the host's list, and that an
idle step ends the response pulse, are the model's choices (assumptions 3 and 4). -/
def Obligations.StepOtherwise : Prop :=
  (∀ s : State, s.host = [] → step s = .next { s with rsp := none }) ∧
  (∀ (s : State) (w : CommandWord) (rest : List HostAction), s.host = .command w :: rest → Running s →
    (decode w).toOption = none → step s = .next { s with fault := 4#3, rsp := none, host := rest }) ∧
  (∀ (s : State) (w : CommandWord) (rest : List HostAction), s.host = .command w :: rest → s.fault ≠ 0#3 →
    step s = .next { s with rsp := none, host := rest }) ∧
  (∀ (s : State) (rest : List HostAction), s.host = .reset :: rest →
    step s = .next { State.reset with host := rest })

/-- R56: presenting a command list to the machine step by step gives the fold of `exec`: the same final state, and
at each step the response of that command. The list the machine reads the words from is the model's own field
(assumption 2). -/
def Obligations.StreamIsFold : Prop :=
  ∀ (is : List Instr) (rest : List HostAction) (s : State) (rs : List Word) (u : State),
    s.host = presented is rest → runAll is { s with host := rest } = some (rs, u) →
    Host.Core.run Sys2Proof.core is.length s = .next u ∧ rs.length = is.length ∧
    ∀ k, k < is.length → ∃ v : State, Host.Core.run Sys2Proof.core (k + 1) s = .next v ∧ v.rsp = rs[k]?

/-! ### Reset and invariants (10_state.md, 70_reset_and_hazards.md) -/

/-- R35: after reset every field is zero; the block is Unconfigured and not Faulted. -/
def Obligations.ResetFieldsZero : Prop :=
  State.reset.state = 0#32 ∧ State.reset.poly = 0#32 ∧ State.reset.mask = 0#32 ∧ State.reset.degree = 0#6 ∧
  State.reset.highBit = 0#32 ∧ State.reset.fault = 0#3 ∧ logical State.reset = .unconfigured

/-- R32 and R220 at reset. -/
def Obligations.InvariantAtReset : Prop := FieldsInv State.reset ∧ FaultCodeKnown State.reset

/-- R193: every step, whatever the host does and whether or not it faults, keeps the structural invariant of R32, and
the fault code stays one of those of R220. -/
def Obligations.StepKeepsInvariant : Prop :=
  ∀ s t : State, FieldsInv s → FaultCodeKnown s → step s = .next t → FieldsInv t ∧ FaultCodeKnown t

/-- R250: at an edge with `rst == 1` every field becomes zero, a command in progress is abandoned with no response and
no effect, none is accepted, and at the next edge the block is Unconfigured and ready; at any time, Faulted included.
The same of the host's reset action. -/
def Obligations.ResetEvent : Prop :=
  (∀ (i : PortsIn) (c : Clocked), i.rst = true →
    acceptsAt i c = false ∧ cmdReady true c = false ∧ (edge i c).busy = none ∧ rspValid (edge i c) = false ∧
    (edge i c).block.state = 0#32 ∧ (edge i c).block.poly = 0#32 ∧ (edge i c).block.mask = 0#32 ∧
    (edge i c).block.degree = 0#6 ∧ (edge i c).block.highBit = 0#32 ∧ (edge i c).block.fault = 0#3 ∧
    logical (edge i c).block = .unconfigured ∧ cmdReady false (edge i c) = true) ∧
  (∀ (s : State) (rest : List HostAction), s.host = .reset :: rest →
    ∃ t, step s = .next t ∧ SameFields State.reset t ∧ t.rsp = none ∧ logical t = .unconfigured)

/-! ### SETPOLY and SETSTATE (40_configuration.md) -/

/-- R100: SETPOLY, its encoding, its fields, its fault, and the source's example. -/
def Obligations.SetpolyCommand : Prop :=
  (∀ p : Word, decode (0x1#4 ++ p) = .ok (.setpoly p)) ∧
  (∀ (s : State) (p : Word), Running s → p ≠ 0#32 →
    exec (.setpoly p) s = .next { s with
      poly := p, mask := ones (bitlen p), degree := BitVec.ofNat 6 (bitlen p), state := ones (bitlen p),
      highBit := (ones (bitlen p) >>> 1) + 1#32, rsp := some 0#32 } ∧
    1 ≤ bitlen p ∧ bitlen p ≤ 32 ∧ (ones (bitlen p) >>> 1) + 1#32 = 1#32 <<< (bitlen p - 1)) ∧
  (∀ s : State, Running s → exec (.setpoly 0#32) s = .next { s with fault := 1#3, rsp := none }) ∧
  (∀ s : State, Running s → exec (.setpoly 0x41#32) s = .next { s with
    poly := 0x41#32, mask := 0x7F#32, degree := 7#6, state := 0x7F#32, highBit := 0x40#32, rsp := some 0#32 })

/-- R101: every non-zero polynomial is accepted, and the degree is its bit length, 1 exactly for the value 1 and 32
exactly from 0x80000000 up. -/
def Obligations.EveryNonzeroPolynomialAccepted : Prop :=
  ∀ (s : State) (p : Word), Running s → p ≠ 0#32 →
    ∃ t, exec (.setpoly p) s = .next t ∧ t.fault = 0#3 ∧ t.rsp = some 0#32 ∧ t.poly = p ∧
      t.degree.toNat = bitlen p ∧ 1 ≤ t.degree.toNat ∧ t.degree.toNat ≤ 32 ∧
      (t.degree = 1#6 ↔ p = 1#32) ∧ (t.degree = 32#6 ↔ 2 ^ 31 ≤ p.toNat)

/-- R102: the three ways to compute `mask` from a non-zero `p` agree with what SETPOLY leaves, and its corner cases. -/
def Obligations.MaskThreeWays : Prop :=
  (∀ (s : State) (p : Word), Running s → p ≠ 0#32 → ∃ t, exec (.setpoly p) s = .next t ∧
    (p.toNat ≤ t.mask.toNat ∧ ∀ n, n ≤ 32 → p.toNat ≤ 2 ^ n - 1 → t.mask.toNat ≤ 2 ^ n - 1) ∧
    (∃ n, t.mask.toNat + 1 = 2 ^ n ∧ p.toNat < 2 ^ n ∧ ∀ m, p.toNat < 2 ^ m → 2 ^ n ≤ 2 ^ m) ∧
    (∀ j, j < 32 → (t.mask.getLsbD j = true ↔ ∃ k, j ≤ k ∧ k < 32 ∧ p.getLsbD k = true)) ∧
    t.mask = ones (bitlen p)) ∧
  (∀ s : State, Running s →
    exec (.setpoly 1#32) s = .next { s with
      poly := 1#32, mask := 1#32, degree := 1#6, state := 1#32, highBit := 1#32, rsp := some 0#32 } ∧
    exec (.setpoly 0x80000000#32) s = .next { s with
      poly := 0x80000000#32, mask := 0xFFFFFFFF#32, degree := 32#6, state := 0xFFFFFFFF#32,
      highBit := 0x80000000#32, rsp := some 0#32 } ∧
    exec (.setpoly 0xFFFFFFFF#32) s = .next { s with
      poly := 0xFFFFFFFF#32, mask := 0xFFFFFFFF#32, degree := 32#6, state := 0xFFFFFFFF#32,
      highBit := 0x80000000#32, rsp := some 0#32 } ∧
    exec (.setpoly 0x100#32) s = .next { s with
      poly := 0x100#32, mask := 0x1FF#32, degree := 9#6, state := 0x1FF#32, highBit := 0x100#32,
      rsp := some 0#32 })

/-- R103: a SETPOLY replaces all five source fields whatever they were, doing it twice is doing it once, and after any
number of STEP commands it rewinds `state` to `ones(degree)`. -/
def Obligations.ReconfigurationReplacesAll : Prop :=
  (∀ (s r : State) (p : Word), Running s → Running r → s.host = r.host → p ≠ 0#32 →
    ∃ t, exec (.setpoly p) s = .next t ∧ exec (.setpoly p) r = .next t) ∧
  (∀ (s : State) (p : Word), Running s → p ≠ 0#32 →
    ∃ t, exec (.setpoly p) s = .next t ∧ exec (.setpoly p) t = .next t) ∧
  (∀ (s : State) (p : Word) (n : Nat), Running s → p ≠ 0#32 →
    ∃ rs u t, runAll (.setpoly p :: List.replicate n .step) s = some (rs, u) ∧
      exec (.setpoly p) u = .next t ∧ t.state = ones (bitlen p) ∧ t.poly = p)

/-- R104 and R106: SETSTATE, its encoding, its field, its two faults, its corner cases and its example; and on an
Unconfigured block every operand masks to 0 and the fault reported is UnconfiguredUse. -/
def Obligations.SetstateCommand : Prop :=
  (∀ v : Word, decode (0x2#4 ++ v) = .ok (.setstate v)) ∧
  (∀ (s : State) (v : Word), Ready s → v &&& s.mask ≠ 0#32 →
    exec (.setstate v) s = .next { s with state := v &&& s.mask, rsp := some 0#32 }) ∧
  (∀ (s : State) (v : Word), Ready s → v &&& s.mask = 0#32 →
    exec (.setstate v) s = .next { s with fault := 3#3, rsp := none }) ∧
  (∀ (s : State) (v : Word), Running s → s.poly = 0#32 →
    exec (.setstate v) s = .next { s with fault := 2#3, rsp := none }) ∧
  (∀ (s : State) (v : Word), FieldsInv s → s.poly = 0#32 → s.mask = 0#32 ∧ v &&& s.mask = 0#32) ∧
  (∀ (s : State) (v : Word), Ready s → FieldsInv s → s.degree = 32#6 →
    (v &&& s.mask = v ∧ (v &&& s.mask = 0#32 ↔ v = 0#32))) ∧
  (∀ s : State, Ready s → s.mask = 0xFF#32 →
    exec (.setstate 0xFFFFFFFF#32) s = .next { s with state := 0xFF#32, rsp := some 0#32 } ∧
    exec (.setstate 0x1234#32) s = .next { s with state := 0x34#32, rsp := some 0#32 } ∧
    exec (.setstate 0x100#32) s = .next { s with fault := 3#3, rsp := none })

/-- R192: the one addition never wraps, and gives the single bit `1 << (d - 1)`; `ones(32)` is 0xFFFFFFFF. -/
def Obligations.HighBitFormula : Prop :=
  (∀ m : Word, (m >>> 1).toNat ≤ 0x7FFFFFFF ∧ ((m >>> 1) + 1#32).toNat = (m >>> 1).toNat + 1 ∧
    ((m >>> 1) + 1#32).toNat ≤ 0x80000000) ∧
  (∀ d, 1 ≤ d → d ≤ 32 → (ones d).toNat = 2 ^ d - 1 ∧ (ones d >>> 1) + 1#32 = 1#32 <<< (d - 1)) ∧
  ones 32 = 0xFFFFFFFF#32 ∧
  (∀ s t : State, ∀ p : Word, exec (.setpoly p) s = .next t → t.fault = 0#3 →
    t.highBit = (t.mask >>> 1) + 1#32)

/-! ### STEP (41_generation.md) -/

/-- R120: STEP, its encoding, its field and response, its fault, and its example. -/
def Obligations.StepCommand : Prop :=
  (∀ arg : Word, (decode (0x3#4 ++ arg)).toOption = if arg = 0#32 then some .step else none) ∧
  (∀ s : State, Ready s → s.state.getLsbD 0 = true →
    exec .step s = .next { s with state := (s.state >>> 1) ^^^ s.poly, rsp := some 1#32 }) ∧
  (∀ s : State, Ready s → s.state.getLsbD 0 = false →
    exec .step s = .next { s with state := s.state >>> 1, rsp := some 0#32 }) ∧
  (∀ s : State, Running s → s.poly = 0#32 → exec .step s = .next { s with fault := 2#3, rsp := none }) ∧
  (∀ s : State, Running s → s.poly = 0x8E#32 → s.state = 0xFF#32 →
    ∃ u, runAll [.step, .step, .step] s = some ([1#32, 1#32, 0#32], u) ∧ u.state = 0x7B#32)

/-- R121: STEP bit by bit, and the bits of a Configured block at and above the top position. -/
def Obligations.StepBitByBit : Prop :=
  ∀ s : State, Ready s → ∃ t, exec .step s = .next t ∧ t.rsp = some (bitResponse (s.state.getLsbD 0)) ∧
    (∀ j, j ≤ 30 → t.state.getLsbD j = (s.state.getLsbD (j + 1) ^^ (s.state.getLsbD 0 && s.poly.getLsbD j))) ∧
    t.state.getLsbD 31 = (s.state.getLsbD 0 && s.poly.getLsbD 31) ∧
    (FieldsInv s → (∀ j, s.degree.toNat ≤ j → t.state.getLsbD j = false) ∧
      t.state.getLsbD (s.degree.toNat - 1) = s.state.getLsbD 0)

/-- R122: the corner cases of STEP. -/
def Obligations.StepCornerCases : Prop :=
  (∀ s : State, Ready s → s.state = 0#32 → exec .step s = .next { s with rsp := some 0#32 }) ∧
  (∀ s : State, Ready s → s.state = 1#32 → exec .step s = .next { s with state := s.poly, rsp := some 1#32 }) ∧
  (∀ s : State, Ready s → s.state = s.poly → s.poly.getLsbD 0 = false →
    exec .step s = .next { s with state := s.poly >>> 1, rsp := some 0#32 }) ∧
  (∀ (s : State) (n : Nat), Running s → s.poly = 1#32 → s.state = 1#32 →
    ∃ u, runAll (List.replicate n .step) s = some (List.replicate n 1#32, u) ∧ u.state = 1#32) ∧
  (∀ s t : State, Ready s → FieldsInv s → s.degree = 32#6 → exec .step s = .next t →
    t.state.getLsbD 31 = s.state.getLsbD 0) ∧
  (∀ s : State, Running s → s.poly = 0x80000057#32 → s.state = 0xFFFFFFFF#32 →
    exec .step s = .next { s with state := 0xFFFFFFA8#32, rsp := some 1#32 }) ∧
  (∀ s t : State, Ready s → FieldsInv s → exec .step s = .next t → t.state &&& s.mask = t.state) ∧
  (∀ (s : State) (n : Nat), Running s → s.poly = 0x80000000#32 → s.state = 0xFFFFFFFF#32 →
    ∃ u, runAll (List.replicate n .step) s = some (List.replicate n 1#32, u) ∧ u.state = 0xFFFFFFFF#32)

/-- R196: with `P(x) = 1 + x * poly(x)`, STEP multiplies the residue `S(x)` by `x^(-1)` modulo `P(x)`: `S` and
`x * S'` differ by `P` when a 1 is emitted and by nothing when a 0 is. -/
def Obligations.StepDividesByX : Prop :=
  ∀ s : State, Ready s → ∃ t, exec .step s = .next t ∧
    gf2Poly s.state + Polynomial.X * gf2Poly t.state =
      if t.rsp = some 1#32 then 1 + Polynomial.X * gf2Poly s.poly else 0

/-- R194: STEP, CRCOUT, CRCIN, SYNCF and SYNCB are linear over GF(2) in the old `state` and the operand bits, and STEP
maps 0 to 0. -/
def Obligations.UpdatesAreLinear : Prop :=
  ∀ (s : State) (a b x y : Word) (m n : Bool), Ready s → FieldsInv s →
    (∃ ta tb tc, exec .step { s with state := a } = .next ta ∧ exec .step { s with state := b } = .next tb ∧
      exec .step { s with state := a ^^^ b } = .next tc ∧ tc.state = ta.state ^^^ tb.state) ∧
    (∃ tz, exec .step { s with state := 0#32 } = .next tz ∧ tz.state = 0#32) ∧
    (∃ ta tb tc, exec .crcout { s with state := a } = .next ta ∧ exec .crcout { s with state := b } = .next tb ∧
      exec .crcout { s with state := a ^^^ b } = .next tc ∧ tc.state = ta.state ^^^ tb.state) ∧
    (∃ ta tb tc, exec (.crcin m) { s with state := a } = .next ta ∧
      exec (.crcin n) { s with state := b } = .next tb ∧
      exec (.crcin (m ^^ n)) { s with state := a ^^^ b } = .next tc ∧ tc.state = ta.state ^^^ tb.state) ∧
    (∃ ta tb tc, exec (.syncf x) { s with state := a } = .next ta ∧
      exec (.syncf y) { s with state := b } = .next tb ∧
      exec (.syncf (x ^^^ y)) { s with state := a ^^^ b } = .next tc ∧ tc.state = ta.state ^^^ tb.state) ∧
    (∃ ta tb tc, exec (.syncb x) { s with state := a } = .next ta ∧
      exec (.syncb y) { s with state := b } = .next tb ∧
      exec (.syncb (x ^^^ y)) { s with state := a ^^^ b } = .next tc ∧ tc.state = ta.state ^^^ tb.state)

/-- R195: STEP is a bijection on the register's `2^d` values with the inverse given there, it fixes 0 and keeps
non-zero values non-zero, and every value comes back to itself under STEP alone. -/
def Obligations.StepIsBijection : Prop :=
  ∀ s : State, Ready s → FieldsInv s →
    (∃ t, exec .step s = .next t ∧ t.state &&& s.mask = t.state ∧ (t.state = 0#32 ↔ s.state = 0#32) ∧
      s.state =
        ((((t.state ^^^ (if t.state.getLsbD (s.degree.toNat - 1) then s.poly else 0#32)) <<< 1) &&& s.mask) |||
          (if t.state.getLsbD (s.degree.toNat - 1) then 1#32 else 0#32))) ∧
    (∀ v : Word, v &&& s.mask = v → ∃ a t, a &&& s.mask = a ∧ exec .step { s with state := a } = .next t ∧
      t.state = v) ∧
    (∃ n rs u, 0 < n ∧ runAll (List.replicate n .step) s = some (rs, u) ∧ u.state = s.state)

/-- R197, R123: G7 and G8 meet what is required of a catalogue polynomial: from `state == mask` the period is exactly
127 and 255. -/
def Obligations.CataloguePeriods : Prop :=
  CatalogueEntryMeets .g7 ∧ CatalogueEntryMeets .g8 ∧
  (∀ s : State, Running s → ∃ t rs u, exec (.setpoly (Config.catalogue .g7)) s = .next t ∧
    runAll (List.replicate 127 .step) t = some (rs, u) ∧ u.state = t.state) ∧
  (∀ s : State, Running s → ∃ t rs u, exec (.setpoly (Config.catalogue .g8)) s = .next t ∧
    runAll (List.replicate 255 .step) t = some (rs, u) ∧ u.state = t.state)

/-! ### SYNCF and SYNCB (42_synchronization.md) -/

/-- R140: SYNCF, its encoding, its loop, its fault, and its example with the state after each iteration. The third
clause holds on every Configured block, whatever its derived fields hold: SYNCF completes, and writes nothing but the
register and the response. -/
def Obligations.SyncfCommand : Prop :=
  (∀ x : Word, decode (0x4#4 ++ x) = .ok (.syncf x)) ∧
  (∀ (s : State) (x : Word), Ready s → FieldsInv s →
    exec (.syncf x) s = .next { s with
      state := (List.range s.degree.toNat).foldl
        (fun v i => if x.getLsbD i then (v >>> 1) ^^^ s.poly else v >>> 1) s.state
      rsp := some 0#32 }) ∧
  (∀ (s : State) (x : Word), Ready s →
    ∃ v : Word, exec (.syncf x) s = .next { s with state := v, rsp := some 0#32 }) ∧
  (∀ (s : State) (x : Word), Running s → s.poly = 0#32 →
    exec (.syncf x) s = .next { s with fault := 2#3, rsp := none }) ∧
  ((List.range 8).map (fun n => syncfLoop 0x8E#32 0xA5#32 0xFF#32 (n + 1)) =
    [0xF1#32, 0x78#32, 0xB2#32, 0x59#32, 0x2C#32, 0x98#32, 0x4C#32, 0xA8#32]) ∧
  (∀ s : State, Running s → s.poly = 0x8E#32 → s.degree = 8#6 → s.state = 0xFF#32 →
    exec (.syncf 0xA5#32) s = .next { s with state := 0xA8#32, rsp := some 0#32 })

/-- R198: the closed form of SYNCF, from any state of the register. -/
def Obligations.SyncfClosedForm : Prop :=
  ∀ (s : State) (x : Word), Ready s → FieldsInv s →
    exec (.syncf x) s = .next { s with
      state := (List.range s.degree.toNat).foldl
        (fun v i => if x.getLsbD i then v ^^^ (s.poly >>> (s.degree.toNat - 1 - i)) else v) 0#32
      rsp := some 0#32 }

/-- R199: SYNCF is a bijection from `x[d-1:0]` to the state it leaves, and leaves 0 exactly when `x[d-1:0]` is 0. -/
def Obligations.SyncfIsBijection : Prop :=
  ∀ s : State, Ready s → FieldsInv s →
    (∀ x : Word, ∃ t, exec (.syncf x) s = .next t ∧ t.state &&& s.mask = t.state ∧
      (t.state = 0#32 ↔ x &&& s.mask = 0#32)) ∧
    (∀ v : Word, v &&& s.mask = v → ∃! x : Word, x &&& s.mask = x ∧
      exec (.syncf x) s = .next { s with state := v, rsp := some 0#32 })

/-- R142: the old state and the operand bits at and above `d` have no influence on SYNCF, and the two one-bit
operands. -/
def Obligations.SyncfCornerCases : Prop :=
  (∀ (s : State) (a x y : Word), Ready s → FieldsInv s → a &&& s.mask = a → x &&& s.mask = y &&& s.mask →
    ∃ t, exec (.syncf x) s = .next t ∧ exec (.syncf y) { s with state := a } = .next t) ∧
  (∀ (s : State) (x : Word), Ready s → FieldsInv s → x &&& s.mask = 1#32 →
    exec (.syncf x) s = .next { s with state := 1#32, rsp := some 0#32 }) ∧
  (∀ (s : State) (x : Word), Ready s → FieldsInv s → x &&& s.mask = s.highBit →
    exec (.syncf x) s = .next { s with state := s.poly, rsp := some 0#32 })

/-- R141: a receiver that executes SYNCF on the `d` bits a generator with the same polynomial has just emitted is in
the generator's state, whatever its own state was, and from there both return identical bits. -/
def Obligations.SyncfTracksGenerator : Prop :=
  ∀ g r : State, Ready g → FieldsInv g → Ready r → FieldsInv r → r.poly = g.poly →
    ∃ rs u, runAll (List.replicate g.degree.toNat .step) g = some (rs, u) ∧
      (∃ x : Word, rs = bitResponses x g.degree.toNat) ∧
      ∀ x : Word, rs = bitResponses x g.degree.toNat →
        ∃ t, exec (.syncf x) r = .next t ∧ t.state = u.state ∧
          ∀ n, ∃ qs t' u', runAll (List.replicate n .step) t = some (qs, t') ∧
            runAll (List.replicate n .step) u = some (qs, u') ∧ t'.state = u'.state

/-- R143: SYNCB, its encoding, its loop written out over the probed bits `d-1` down to 0, its fault, and its
example. The third clause holds on every Configured block, whatever its derived fields hold: SYNCB completes, and
writes nothing but the register and the response. -/
def Obligations.SyncbCommand : Prop :=
  (∀ x : Word, decode (0x5#4 ++ x) = .ok (.syncb x)) ∧
  (∀ (s : State) (x : Word), Ready s → FieldsInv s →
    exec (.syncb x) s = .next { s with
      state := ((List.range s.degree.toNat).reverse.foldl
        (fun v j => (if x.getLsbD j then v ^^^ s.poly else v) <<< 1) 0#32 ^^^ x) &&& s.mask
      rsp := some 0#32 }) ∧
  (∀ (s : State) (x : Word), Ready s →
    ∃ v : Word, v &&& s.mask = v ∧ exec (.syncb x) s = .next { s with state := v, rsp := some 0#32 }) ∧
  (∀ (s : State) (x : Word), Running s → s.poly = 0#32 →
    exec (.syncb x) s = .next { s with fault := 2#3, rsp := none }) ∧
  (∀ s : State, Running s → s.poly = 0x8E#32 → s.mask = 0xFF#32 → s.highBit = 0x80#32 →
    exec (.syncb 0xA5#32) s = .next { s with state := 0x49#32, rsp := some 0#32 })

/-- R144: after `SYNCB x` the next `d` STEP commands return `x[0]`, ..., `x[d-1]` in that order. -/
def Obligations.SyncbReproducesOperand : Prop :=
  ∀ (s : State) (x : Word), Ready s → FieldsInv s →
    ∃ t u, exec (.syncb x) s = .next t ∧
      runAll (List.replicate s.degree.toNat .step) t = some (bitResponses x s.degree.toNat, u)

/-- R200: the closed form of SYNCB, bit by bit. -/
def Obligations.SyncbClosedForm : Prop :=
  ∀ (s : State) (x : Word), Ready s → FieldsInv s →
    ∃ t, exec (.syncb x) s = .next t ∧
      (∀ k, k < s.degree.toNat → t.state.getLsbD k =
        (List.range k).foldl (fun b i => b ^^ (x.getLsbD i && s.poly.getLsbD (k - 1 - i))) (x.getLsbD k)) ∧
      (∀ k, s.degree.toNat ≤ k → t.state.getLsbD k = false)

/-- R201: SYNCB is a bijection from `x[d-1:0]` to the state it leaves, leaves 0 exactly when `x[d-1:0]` is 0, and its
inverse is to execute `d` STEP commands and collect the responses. -/
def Obligations.SyncbIsBijection : Prop :=
  ∀ s : State, Ready s → FieldsInv s →
    (∀ x : Word, ∃ t, exec (.syncb x) s = .next t ∧ t.state &&& s.mask = t.state ∧
      (t.state = 0#32 ↔ x &&& s.mask = 0#32)) ∧
    (∀ v : Word, v &&& s.mask = v → ∃! x : Word, x &&& s.mask = x ∧
      exec (.syncb x) s = .next { s with state := v, rsp := some 0#32 }) ∧
    (∀ x v : Word, exec (.syncb x) s = .next { s with state := v, rsp := some 0#32 } →
      ∃ u, runAll (List.replicate s.degree.toNat .step) { s with state := v } =
        some (bitResponses x s.degree.toNat, u))

/-- R146: `SYNCB x` followed by `d` STEP commands leaves the same `state` as `SYNCF x` alone, and the STEP commands
return `x[d-1:0]` LSB-first. -/
def Obligations.SyncDuality : Prop :=
  ∀ (s : State) (x : Word), Ready s → FieldsInv s →
    ∃ t u, exec (.syncf x) s = .next t ∧
      runAll (.syncb x :: List.replicate s.degree.toNat .step) s =
        some (0#32 :: bitResponses x s.degree.toNat, u) ∧ u.state = t.state

/-! ### CRCIN and CRCOUT (43_crc.md) -/

/-- R160: CRCIN, its encoding, its field, its fault, and its examples. -/
def Obligations.CrcinCommand : Prop :=
  (∀ arg : Word, (decode (0x6#4 ++ arg)).toOption =
    if arg >>> 1 = 0#32 then some (.crcin (arg.getLsbD 0)) else none) ∧
  (∀ (s : State) (b : Bool), Ready s → (s.state.getLsbD 0 ^^ b) = true →
    exec (.crcin b) s = .next { s with state := (s.state >>> 1) ^^^ s.poly, rsp := some 0#32 }) ∧
  (∀ (s : State) (b : Bool), Ready s → (s.state.getLsbD 0 ^^ b) = false →
    exec (.crcin b) s = .next { s with state := s.state >>> 1, rsp := some 0#32 }) ∧
  (∀ (s : State) (b : Bool), Running s → s.poly = 0#32 →
    exec (.crcin b) s = .next { s with fault := 2#3, rsp := none }) ∧
  (∀ s : State, Running s → s.poly = 0x8E#32 → s.state = 0xFF#32 →
    exec (.crcin true) s = .next { s with state := 0x7F#32, rsp := some 0#32 }) ∧
  (∀ s : State, Running s → s.poly = 0x8E#32 → s.state = 0x7F#32 →
    exec (.crcin false) s = .next { s with state := 0xB1#32, rsp := some 0#32 })

/-- R161: CRCIN beside the other one-bit commands: CRCIN 0 as STEP, once or `n` times; CRCIN of the outgoing bit as
CRCOUT; and CRCIN b as STEP and then XOR of the polynomial if `b`. -/
def Obligations.CrcinCompared : Prop :=
  (∀ s : State, Ready s → ∃ t u, exec .step s = .next t ∧ exec (.crcin false) s = .next u ∧
    u = { t with rsp := some 0#32 }) ∧
  (∀ (s : State) (n : Nat), Ready s → ∃ rs t u, runAll (List.replicate n .step) s = some (rs, t) ∧
    runAll (List.replicate n (.crcin false)) s = some (List.replicate n 0#32, u) ∧ u.state = t.state) ∧
  (∀ s : State, Ready s → ∃ t u, exec .crcout s = .next t ∧ exec (.crcin (s.state.getLsbD 0)) s = .next u ∧
    u = { t with rsp := some 0#32 }) ∧
  (∀ (s : State) (b : Bool), Ready s → ∃ t u, exec .step s = .next t ∧ exec (.crcin b) s = .next u ∧
    u.state = t.state ^^^ (if b then s.poly else 0#32))

/-- R202: the state after feeding a message is the start state stepped, XOR one stepped polynomial per message bit
that is 1. -/
def Obligations.CrcFeedLaw : Prop :=
  ∀ (s : State) (ms : List Bool), Ready s →
    ∃ rs u, runAll (ms.map Instr.crcin) s = some (rs, u) ∧
      u.state = (List.range ms.length).foldl
        (fun v k => if ms[k]? = some true then v ^^^ stepTimes s.poly (ms.length - 1 - k) s.poly else v)
        (stepTimes s.poly ms.length s.state) ∧
      (∃ qs t, runAll (List.replicate ms.length .step) s = some (qs, t) ∧
        t.state = stepTimes s.poly ms.length s.state)

/-- R163: CRCOUT, its encoding, its field and response, its fault, and its examples. -/
def Obligations.CrcoutCommand : Prop :=
  (∀ arg : Word, (decode (0x7#4 ++ arg)).toOption = if arg = 0#32 then some .crcout else none) ∧
  (∀ s : State, Ready s → exec .crcout s = .next { s with
    state := s.state >>> 1, rsp := some (if s.state.getLsbD 0 then 1#32 else 0#32) }) ∧
  (∀ s : State, Running s → s.poly = 0#32 → exec .crcout s = .next { s with fault := 2#3, rsp := none }) ∧
  (∀ s : State, Ready s → s.state = 0x88#32 →
    exec .crcout s = .next { s with state := 0x44#32, rsp := some 0#32 }) ∧
  (∀ s : State, Ready s → s.state = 0x11#32 →
    exec .crcout s = .next { s with state := 0x08#32, rsp := some 1#32 })

/-- R164: CRCOUT on 0 and on 1; it never sets a bit, and makes a non-zero `state` smaller. -/
def Obligations.CrcoutOnlyShrinks : Prop :=
  ∀ s : State, Ready s → ∃ t, exec .crcout s = .next t ∧
    (s.state = 0#32 → t.rsp = some 0#32 ∧ t.state = 0#32) ∧
    (s.state = 1#32 → t.rsp = some 1#32 ∧ t.state = 0#32) ∧
    ((List.range 32).countP fun j => t.state.getLsbD j) ≤ ((List.range 32).countP fun j => s.state.getLsbD j) ∧
    (s.state ≠ 0#32 → t.state.toNat < s.state.toNat) ∧ t.state.getLsbD 31 = false

/-- R165: `d` CRCOUT commands return `s[0]`, ..., `s[d-1]` in that order and leave `state == 0`; any further CRCOUT
returns 0. -/
def Obligations.DrainReadsRemainder : Prop :=
  ∀ s : State, Ready s → FieldsInv s →
    ∃ u, runAll (List.replicate s.degree.toNat .crcout) s = some (bitResponses s.state s.degree.toNat, u) ∧
      u.state = 0#32 ∧ ∀ n, ∃ v, runAll (List.replicate n .crcout) u = some (List.replicate n 0#32, v) ∧
        v.state = 0#32

/-- R167: feeding the register's own `d` bits back, bit 0 first, leaves `state == 0`; and the example, a data byte
and then its remainder. -/
def Obligations.RefeedCancels : Prop :=
  (∀ s : State, Ready s → FieldsInv s →
    ∃ rs u, runAll (crcinBits s.state s.degree.toNat) s = some (rs, u) ∧ u.state = 0#32) ∧
  (∀ s : State, Running s → s.poly = 0x8E#32 → s.state = 0xFF#32 →
    ∃ rs u qs v, runAll (crcinBits 0x31#32 8) s = some (rs, u) ∧ u.state = 0x88#32 ∧
      runAll (crcinBits 0x88#32 8) u = some (qs, v) ∧ v.state = 0#32)

/-! ### Accessors (44_accessors.md) -/

/-- R180 to R184: each accessor answers its field and writes nothing, in every block that is not Faulted. -/
def Obligations.AccessorsAnswerFields : Prop :=
  ∀ s : State, Running s →
    exec .rdstate s = .next { s with rsp := some s.state } ∧
    exec .rdpoly s = .next { s with rsp := some s.poly } ∧
    exec .rdmask s = .next { s with rsp := some s.mask } ∧
    exec .rdhbit s = .next { s with rsp := some s.highBit } ∧
    exec .rddegr s = .next { s with rsp := some (BitVec.ofNat 32 s.degree.toNat) }

/-- R180 to R184, the corner cases: what the accessors of a block that keeps R32 can answer, and that RDPOLY returns
the operand of the last completed SETPOLY, bit for bit. -/
def Obligations.AccessorValues : Prop :=
  (∀ s : State, Running s → FieldsInv s →
    (s.poly = 0#32 → runAll [.rdstate, .rdpoly, .rdmask, .rdhbit, .rddegr] s =
      some ([0#32, 0#32, 0#32, 0#32, 0#32], { s with rsp := some 0#32 })) ∧
    (s.poly ≠ 0#32 → ∃ v p m h g u, runAll [.rdstate, .rdpoly, .rdmask, .rdhbit, .rddegr] s =
      some ([v, p, m, h, g], u) ∧ p ≠ 0#32 ∧ 1 ≤ g.toNat ∧ g.toNat ≤ 32 ∧ m.toNat = 2 ^ g.toNat - 1 ∧
      h.toNat = 2 ^ (g.toNat - 1) ∧ v.toNat < 2 ^ g.toNat ∧ p.toNat < 2 ^ g.toNat ∧
      2 ^ (g.toNat - 1) ≤ p.toNat)) ∧
  (∀ (s u : State) (p : Word) (is : List Instr) (rs : List Word), Running s → p ≠ 0#32 →
    (∀ i ∈ is, ∀ q, i ≠ .setpoly q) → runAll (.setpoly p :: is) s = some (rs, u) →
    exec .rdpoly u = .next { u with rsp := some p })

/-- R185: the accessors are legal in both logical states, an accessor word faults only with IllegalCommand and only
when its operand field is not 0, a Faulted block does not accept them, and any number of them between two other
commands changes neither the fields nor a later response. -/
def Obligations.AccessorsCommon : Prop :=
  (∀ (s : State) (op : BitVec 4) (arg : Word), Running s → 8 ≤ op.toNat → op.toNat ≤ 12 →
    ∃ t, acceptWord (op ++ arg) s = .next t ∧
      ((arg = 0#32 ∧ SameFields s t ∧ t.rsp.isSome = true) ∨
        (arg ≠ 0#32 ∧ t = { s with fault := 4#3, rsp := none }))) ∧
  (∀ (s : State) (op : BitVec 4) (arg : Word), s.fault ≠ 0#3 → 8 ≤ op.toNat → op.toNat ≤ 12 →
    presentWord (op ++ arg) s = .next { s with rsp := none }) ∧
  (∀ (s : State) (reads is : List Instr), Running s →
    (∀ i ∈ reads, i = .rdstate ∨ i = .rdpoly ∨ i = .rdmask ∨ i = .rdhbit ∨ i = .rddegr) →
    ∃ rs t, runAll reads s = some (rs, t) ∧ SameFields s t ∧
      (runAll is t).map Prod.fst = (runAll is s).map Prod.fst)

/-! ### Faults and logical states (60_exceptions.md) -/

/-- R220: which word raises which fault on a running block, by cause code; 5, 6 and 7 are never written, and nothing
but the code is recorded. -/
def Obligations.FaultCauses : Prop :=
  ∀ (w : CommandWord) (s : State), Running s → ∃ t, acceptWord w s = .next t ∧
    (t.fault = 1#3 ↔ decode w = .ok (.setpoly 0#32)) ∧
    (t.fault = 2#3 ↔ s.poly = 0#32 ∧ ((∃ v, decode w = .ok (.setstate v)) ∨ decode w = .ok .step ∨
      (∃ x, decode w = .ok (.syncf x)) ∨ (∃ x, decode w = .ok (.syncb x)) ∨ (∃ b, decode w = .ok (.crcin b)) ∨
      decode w = .ok .crcout)) ∧
    (t.fault = 3#3 ↔ s.poly ≠ 0#32 ∧ ∃ v, decode w = .ok (.setstate v) ∧ v &&& s.mask = 0#32) ∧
    (t.fault = 4#3 ↔ (decode w).toOption = none) ∧
    t.fault ≠ 5#3 ∧ t.fault ≠ 6#3 ∧ t.fault ≠ 7#3 ∧
    (t.fault ≠ 0#3 → t = { s with fault := t.fault, rsp := none })

/-- R223: a command that raises a fault writes the cause code and no other field, and gives no response; the `fault`
and `fault_cause` ports show it. (What the five source fields of a Faulted block hold is the spec's decision D8, and
R225 asks that no claim rest on it: assumption 5.) -/
def Obligations.FaultEntry : Prop :=
  ∀ (w : CommandWord) (s t : State), acceptWord w s = .next t → t.fault ≠ 0#3 →
    t.state = s.state ∧ t.poly = s.poly ∧ t.mask = s.mask ∧ t.degree = s.degree ∧ t.highBit = s.highBit ∧
    t.rsp = none ∧ isFaulted t = true ∧
    ∃ c, t.fault = causeCode c ∧ faultCausePort t = causeCode c

/-- R224: a Faulted block has no successor under `exec`, and with no reset among the host's next actions it keeps every
field and makes no response, for any number of steps; `cmd_ready` is 0; a reset returns it to Unconfigured. (That a
word not accepted leaves the host's list, so that a later action is reached, is the model's choice: assumption 4.) -/
def Obligations.FaultedIsAbsorbing : Prop :=
  (∀ (s : State) (i : Instr), s.fault ≠ 0#3 → exec i s = .fault .halted) ∧
  (∀ (s : State) (n : Nat), s.fault ≠ 0#3 → (∀ k, k < n → s.host[k]? ≠ some .reset) →
    ∃ u : State, Host.Core.run Sys2Proof.core n s = .next u ∧ SameFields s u ∧ (0 < n → u.rsp = none)) ∧
  (∀ (s : State) (rest : List HostAction), s.fault ≠ 0#3 → s.host = .reset :: rest →
    ∃ t, step s = .next t ∧ logical t = .unconfigured) ∧
  (∀ (s : State) (busy : Option InProgress) (rst : Bool), s.fault ≠ 0#3 → cmdReady rst ⟨s, busy⟩ = false)

/-- R226: the order of the tests: IllegalCommand before the state is looked at, then InvalidPolynomial for SETPOLY and
UnconfiguredUse for the six others, then InvalidState for SETSTATE. -/
def Obligations.FaultPriority : Prop :=
  ∀ s : State, Running s →
    (∀ w : CommandWord, (decode w).toOption = none → acceptWord w s = .next { s with fault := 4#3, rsp := none }) ∧
    exec (.setpoly 0#32) s = .next { s with fault := 1#3, rsp := none } ∧
    (s.poly = 0#32 → ∀ i : Instr, ((∃ v, i = .setstate v) ∨ i = .step ∨ (∃ x, i = .syncf x) ∨ (∃ x, i = .syncb x) ∨
      (∃ b, i = .crcin b) ∨ i = .crcout) → exec i s = .next { s with fault := 2#3, rsp := none }) ∧
    (s.poly ≠ 0#32 → ∀ v : Word, v &&& s.mask = 0#32 →
      exec (.setstate v) s = .next { s with fault := 3#3, rsp := none })

/-- R229: everything that is not one of the faults of R220 completes: a next state that is not Faulted, with one
response. -/
def Obligations.EveryLegalCommandCompletes : Prop :=
  ∀ (s : State) (i : Instr), Running s →
    (i = .rdstate ∨ i = .rdpoly ∨ i = .rdmask ∨ i = .rdhbit ∨ i = .rddegr ∨ (∃ p, i = .setpoly p ∧ p ≠ 0#32) ∨
      (s.poly ≠ 0#32 ∧ (i = .step ∨ i = .crcout ∨ (∃ b, i = .crcin b) ∨ (∃ x, i = .syncf x) ∨ (∃ x, i = .syncb x) ∨
        ∃ v, i = .setstate v ∧ v &&& s.mask ≠ 0#32))) →
    ∃ t, exec i s = .next t ∧ t.fault = 0#3 ∧ t.rsp.isSome = true

/-- R233: the logical states: which command words lead where from Unconfigured and from Configured. -/
def Obligations.LogicalStateChanges : Prop :=
  ∀ (w : CommandWord) (s : State), Running s → ∃ t, acceptWord w s = .next t ∧
    (s.poly = 0#32 → logical s = .unconfigured ∧
      (logical t = .configured ↔ ∃ p, p ≠ 0#32 ∧ decode w = .ok (.setpoly p)) ∧
      (logical t = .unconfigured ↔ decode w = .ok .rdstate ∨ decode w = .ok .rdpoly ∨ decode w = .ok .rdmask ∨
        decode w = .ok .rdhbit ∨ decode w = .ok .rddegr)) ∧
    (s.poly ≠ 0#32 → logical s = .configured ∧ logical t ≠ .unconfigured ∧
      (logical t = .faulted ↔ (decode w).toOption = none ∨ decode w = .ok (.setpoly 0#32) ∨
        ∃ v, decode w = .ok (.setstate v) ∧ v &&& s.mask = 0#32))

/-- The "written by" column of R20, as a frame: no command but SETPOLY writes `poly`, `mask`, `degree` or `highBit`;
no RD* command and no faulting command writes `state`; a completing command does not write `fault`. -/
def Obligations.CommandFrame : Prop :=
  ∀ (i : Instr) (s t : State), exec i s = .next t →
    t.host = s.host ∧
    ((∀ p, i ≠ .setpoly p) → t.poly = s.poly ∧ t.mask = s.mask ∧ t.degree = s.degree ∧ t.highBit = s.highBit) ∧
    ((i = .rdstate ∨ i = .rdpoly ∨ i = .rdmask ∨ i = .rdhbit ∨ i = .rddegr) → SameFields s t) ∧
    (t.fault ≠ 0#3 → t.state = s.state ∧ t.poly = s.poly ∧ t.mask = s.mask ∧ t.degree = s.degree ∧
      t.highBit = s.highBit ∧ t.rsp = none) ∧
    (t.fault = 0#3 → s.fault = 0#3 ∧ t.rsp.isSome = true)

/-- R34, of the machine's steps. After a step from a block that keeps R32, `mask`, `degree` and `highBit` are the
function of `poly` that R34 gives; a step that leaves `poly` as it was leaves all three as they were; and a step at
which the host neither resets the block nor presents a SETPOLY leaves all four as they were, in any block whatever.
(What the host does next is read from the model's own list: assumption 2.) -/
def Obligations.DerivedFieldsFollowPoly : Prop :=
  (∀ s t : State, FieldsInv s → step s = .next t →
    (t.poly = 0#32 → t.mask = 0#32 ∧ t.degree = 0#6 ∧ t.highBit = 0#32) ∧
    (t.poly ≠ 0#32 → t.degree.toNat = bitlen t.poly ∧ t.mask = ones t.degree.toNat ∧
      t.highBit = 1#32 <<< (t.degree.toNat - 1))) ∧
  (∀ s t : State, FieldsInv s → step s = .next t → t.poly = s.poly →
    t.mask = s.mask ∧ t.degree = s.degree ∧ t.highBit = s.highBit) ∧
  (∀ s t : State, step s = .next t → (∀ rest, s.host ≠ .reset :: rest) →
    (∀ w rest p, s.host = .command w :: rest → decode w ≠ .ok (.setpoly p)) →
    t.poly = s.poly ∧ t.mask = s.mask ∧ t.degree = s.degree ∧ t.highBit = s.highBit)

/-- R33: where `state != 0` is kept and where it is not. -/
def Obligations.NonzeroStateWhereKept : Prop :=
  ∀ s : State, Ready s → FieldsInv s →
    (∀ p : Word, p ≠ 0#32 → ∃ t, exec (.setpoly p) s = .next t ∧ t.state ≠ 0#32) ∧
    (∀ v : Word, v &&& s.mask ≠ 0#32 → ∃ t, exec (.setstate v) s = .next t ∧ t.state ≠ 0#32) ∧
    (∃ t, exec .step s = .next t ∧ (t.state ≠ 0#32 ↔ s.state ≠ 0#32)) ∧
    (∀ x : Word, ∃ t, exec (.syncf x) s = .next t ∧
      (t.state = 0#32 ↔ ∀ j, j < s.degree.toNat → x.getLsbD j = false)) ∧
    (∀ x : Word, ∃ t, exec (.syncb x) s = .next t ∧
      (t.state = 0#32 ↔ ∀ j, j < s.degree.toNat → x.getLsbD j = false)) ∧
    (∃ t, exec (.crcin true) { s with state := 1#32 } = .next t ∧ t.state = 0#32 ∧ t.fault = 0#3) ∧
    (∃ rs u, runAll (List.replicate s.degree.toNat .crcout) s = some (rs, u) ∧ u.state = 0#32 ∧ u.fault = 0#3)

/-- R255: the zero state is absorbing for STEP, CRCOUT and CRCIN 0 for any number of them, and the ways out of it. -/
def Obligations.ZeroStateHazard : Prop :=
  ∀ s : State, Ready s → FieldsInv s → s.state = 0#32 →
    (∀ is : List Instr, (∀ i ∈ is, i = .step ∨ i = .crcout ∨ i = .crcin false) →
      ∃ u, runAll is s = some (List.replicate is.length 0#32, u) ∧ u.state = 0#32) ∧
    (∀ p : Word, p ≠ 0#32 → ∃ t, exec (.setpoly p) s = .next t ∧ t.state = ones t.degree.toNat ∧
      t.state ≠ 0#32) ∧
    (∀ v : Word, v &&& s.mask ≠ 0#32 → ∃ t, exec (.setstate v) s = .next t ∧ t.state = v &&& s.mask) ∧
    (∀ x : Word, x &&& s.mask ≠ 0#32 → ∃ t u, exec (.syncf x) s = .next t ∧ t.state ≠ 0#32 ∧
      exec (.syncb x) s = .next u ∧ u.state ≠ 0#32) ∧
    (∃ t, exec (.crcin true) s = .next t ∧ t.state = s.poly) ∧
    exec .rdstate s = .next { s with rsp := some 0#32 }

/-- R54, the last column: which commands done twice in a row equal the command done once. -/
def Obligations.TwiceEqualsOnce : Prop :=
  ∀ (s t : State) (i : Instr), Ready s → FieldsInv s → exec i s = .next t → t.fault = 0#3 →
    i ≠ .step → i ≠ .crcout → (∀ b, i ≠ .crcin b) → exec i t = .next t

/-- R76: the response of each command that completes, and none of one that faults. -/
def Obligations.ResponseValues : Prop :=
  ∀ (i : Instr) (s t : State), exec i s = .next t →
    (t.fault ≠ 0#3 → t.rsp = none) ∧
    (t.fault = 0#3 → t.rsp = some (match i with
      | .step => if s.state.getLsbD 0 then 1#32 else 0#32
      | .crcout => if s.state.getLsbD 0 then 1#32 else 0#32
      | .rdstate => s.state
      | .rdpoly => s.poly
      | .rdmask => s.mask
      | .rdhbit => s.highBit
      | .rddegr => BitVec.ofNat 32 s.degree.toNat
      | .setpoly _ => 0#32
      | .setstate _ => 0#32
      | .syncf _ => 0#32
      | .syncb _ => 0#32
      | .crcin _ => 0#32))

/-! ### Ports (30_encoding.md R70, R71) -/

/-- R71: when a command is accepted, that at most one is in progress, how a completing and a faulting command show
on the ports, and that the response pulse lasts one cycle. The edges are the model's choice (assumption 11): that a
command completes `LAT` edges after the one that accepted it, with its latency looked up at acceptance, and that the
edge which writes the fields is the edge of the response pulse. -/
def Obligations.PortHandshake : Prop :=
  (∀ (i : PortsIn) (c : Clocked), acceptsAt i c = true ↔
    i.rst = false ∧ i.cmdValid = true ∧ c.block.fault = 0#3 ∧ c.busy = none) ∧
  (∀ (i : PortsIn) (c : Clocked), acceptsAt i c = true → SameFields c.block (edge i c).block ∧
    ∃ n, (edge i c).busy = some ⟨i.cmd, n⟩ ∧ n + 1 = Config.lat (wordOp i.cmd) c.block.degree) ∧
  (∀ (i : PortsIn) (c : Clocked) (w : CommandWord), i.rst = false → c.busy = some ⟨w, 0⟩ → Running c.block →
    ∃ t, acceptWord w c.block = .next t ∧ edge i c = ⟨t, none⟩ ∧
      (t.fault = 0#3 → rspValid (edge i c) = true ∧ cmdReady false (edge i c) = true) ∧
      (t.fault ≠ 0#3 → rspValid (edge i c) = false ∧ cmdReady false (edge i c) = false)) ∧
  (∀ (i : PortsIn) (c : Clocked), (∀ w, c.busy ≠ some ⟨w, 0⟩) → rspValid (edge i c) = false) ∧
  (∀ (is : List PortsIn) (c : Clocked), c.block.fault ≠ 0#3 → c.busy = none → (∀ i ∈ is, i.rst = false) →
    cmdReady false (edges is c) = false ∧ SameFields c.block (edges is c).block ∧ (edges is c).busy = none)

/-- R6, R71: the ports are a realisation of `exec`: a word accepted at an edge with the block idle and not Faulted is
executed exactly as `exec` says, at the edge `LAT(op, degree)` edges later and whatever the latency is, with nothing to
be seen of it before. Which edge completes the word, and that the response shows at that edge, is the model's choice
(assumption 11). -/
def Obligations.PortsRealiseExec : Prop :=
  ∀ (i : PortsIn) (js : List PortsIn) (c : Clocked), acceptsAt i c = true → (∀ j ∈ js, j.rst = false) →
    js.length = Config.lat (wordOp i.cmd) c.block.degree →
    (∃ u, acceptWord i.cmd c.block = .next u ∧ edges (i :: js) c = ⟨u, none⟩) ∧
    ∀ k, k < js.length →
      SameFields c.block (edges (i :: js.take k) c).block ∧ rspValid (edges (i :: js.take k) c) = false ∧
      cmdReady false (edges (i :: js.take k) c) = false

/-! ### Power-up (70_reset_and_hazards.md R252) -/

/-- R252: until the first edge with `rst == 1` the block stays unspecified; that edge leaves it as every reset does,
and nothing afterwards depends on what was in it, on how long the phase lasted or on what the host drove in it; a host
that keeps its two obligations has no command accepted before that edge, and may have one at the very next edge; and
of the host's transactions the first is then a reset, which the step of the machine carries out on the unspecified
fields. The unspecified values are free (assumption 7), and a host's transactions are the model's own list
(assumption 2). -/
def Obligations.PowerUpThenReset : Prop :=
  (∀ (n : Nat) (is : List PortsIn), (∀ i ∈ is, i.rst = false) →
    poweredEdges is (.unreset n) = .unreset (n + is.length)) ∧
  (∀ (n : Nat) (pre post : List PortsIn) (r : PortsIn), (∀ i ∈ pre, i.rst = false) → r.rst = true →
    poweredEdges (pre ++ r :: post) (.unreset n) = .initialised (edges post ⟨State.reset, none⟩) ∧
    poweredPorts false (poweredEdges (pre ++ [r]) (.unreset n)) = ⟨true, false, none, false, 0#3⟩ ∧
    logical (poweredBlock (poweredEdges (pre ++ [r]) (.unreset n))) = .unconfigured) ∧
  (∀ (n k : Nat) (is : List PortsIn) (i : PortsIn), obeysPowerUp is = true → is[k]? = some i →
    poweredAccepts i (poweredEdges (is.take k) (.unreset n)) = true →
    ∃ j r, j < k ∧ is[j]? = some r ∧ r.rst = true) ∧
  (∀ (n : Nat) (pre post : List PortsIn) (r i : PortsIn), (∀ j ∈ pre, j.rst = false ∧ j.cmdValid = false) →
    r.rst = true → r.cmdValid = false → i.rst = false → i.cmdValid = true →
    obeysPowerUp (pre ++ r :: i :: post) = true ∧
    poweredAccepts i (poweredEdges (pre ++ [r]) (.unreset n)) = true) ∧
  (∀ (n : Nat) (h : List HostAction), resetComesFirst h = true → h ≠ [] →
    ∃ rest, h = .reset :: rest ∧ step { unresetBlock n with host := h } = .next { State.reset with host := rest })
end

