-- ==== Sys2Proof/Laws/State.lean ====
section
/-! SUPPORT. What every field holds after every update of Machine/Ops.lean, so that no proof unfolds a record update;
and which updates overwrite one another. -/

namespace Sys2Proof.Machine

/-! ### loadState -/

@[simp] theorem loadState_state (v : Word) (s : State) : (loadState v s).state = v := rfl
@[simp] theorem loadState_poly (v : Word) (s : State) : (loadState v s).poly = s.poly := rfl
@[simp] theorem loadState_mask (v : Word) (s : State) : (loadState v s).mask = s.mask := rfl
@[simp] theorem loadState_degree (v : Word) (s : State) : (loadState v s).degree = s.degree := rfl
@[simp] theorem loadState_highBit (v : Word) (s : State) : (loadState v s).highBit = s.highBit := rfl
@[simp] theorem loadState_fault (v : Word) (s : State) : (loadState v s).fault = s.fault := rfl
@[simp] theorem loadState_rsp (v : Word) (s : State) : (loadState v s).rsp = s.rsp := rfl
@[simp] theorem loadState_host (v : Word) (s : State) : (loadState v s).host = s.host := rfl

/-! ### loadPoly -/

@[simp] theorem loadPoly_state (p : Word) (s : State) : (loadPoly p s).state = ones (bitlen p) := rfl
@[simp] theorem loadPoly_poly (p : Word) (s : State) : (loadPoly p s).poly = p := rfl
@[simp] theorem loadPoly_mask (p : Word) (s : State) : (loadPoly p s).mask = ones (bitlen p) := rfl
@[simp] theorem loadPoly_degree (p : Word) (s : State) : (loadPoly p s).degree = BitVec.ofNat 6 (bitlen p) := rfl
@[simp] theorem loadPoly_highBit (p : Word) (s : State) : (loadPoly p s).highBit = topBit (ones (bitlen p)) := rfl
@[simp] theorem loadPoly_fault (p : Word) (s : State) : (loadPoly p s).fault = s.fault := rfl
@[simp] theorem loadPoly_rsp (p : Word) (s : State) : (loadPoly p s).rsp = s.rsp := rfl
@[simp] theorem loadPoly_host (p : Word) (s : State) : (loadPoly p s).host = s.host := rfl

/-! ### answer -/

@[simp] theorem answer_state (v : Word) (s : State) : (answer v s).state = s.state := rfl
@[simp] theorem answer_poly (v : Word) (s : State) : (answer v s).poly = s.poly := rfl
@[simp] theorem answer_mask (v : Word) (s : State) : (answer v s).mask = s.mask := rfl
@[simp] theorem answer_degree (v : Word) (s : State) : (answer v s).degree = s.degree := rfl
@[simp] theorem answer_highBit (v : Word) (s : State) : (answer v s).highBit = s.highBit := rfl
@[simp] theorem answer_fault (v : Word) (s : State) : (answer v s).fault = s.fault := rfl
@[simp] theorem answer_rsp (v : Word) (s : State) : (answer v s).rsp = some v := rfl
@[simp] theorem answer_host (v : Word) (s : State) : (answer v s).host = s.host := rfl

/-! ### endPulse -/

@[simp] theorem endPulse_state (s : State) : (endPulse s).state = s.state := rfl
@[simp] theorem endPulse_poly (s : State) : (endPulse s).poly = s.poly := rfl
@[simp] theorem endPulse_mask (s : State) : (endPulse s).mask = s.mask := rfl
@[simp] theorem endPulse_degree (s : State) : (endPulse s).degree = s.degree := rfl
@[simp] theorem endPulse_highBit (s : State) : (endPulse s).highBit = s.highBit := rfl
@[simp] theorem endPulse_fault (s : State) : (endPulse s).fault = s.fault := rfl
@[simp] theorem endPulse_rsp (s : State) : (endPulse s).rsp = none := rfl
@[simp] theorem endPulse_host (s : State) : (endPulse s).host = s.host := rfl

/-! ### latchFault -/

@[simp] theorem latchFault_state (c : FaultCause) (s : State) : (latchFault c s).state = s.state := rfl
@[simp] theorem latchFault_poly (c : FaultCause) (s : State) : (latchFault c s).poly = s.poly := rfl
@[simp] theorem latchFault_mask (c : FaultCause) (s : State) : (latchFault c s).mask = s.mask := rfl
@[simp] theorem latchFault_degree (c : FaultCause) (s : State) : (latchFault c s).degree = s.degree := rfl
@[simp] theorem latchFault_highBit (c : FaultCause) (s : State) : (latchFault c s).highBit = s.highBit := rfl
@[simp] theorem latchFault_fault (c : FaultCause) (s : State) : (latchFault c s).fault = causeCode c := rfl
@[simp] theorem latchFault_rsp (c : FaultCause) (s : State) : (latchFault c s).rsp = none := rfl
@[simp] theorem latchFault_host (c : FaultCause) (s : State) : (latchFault c s).host = s.host := rfl

/-! ### clearFields -/

@[simp] theorem clearFields_state (s : State) : (clearFields s).state = 0#32 := rfl
@[simp] theorem clearFields_poly (s : State) : (clearFields s).poly = 0#32 := rfl
@[simp] theorem clearFields_mask (s : State) : (clearFields s).mask = 0#32 := rfl
@[simp] theorem clearFields_degree (s : State) : (clearFields s).degree = 0#6 := rfl
@[simp] theorem clearFields_highBit (s : State) : (clearFields s).highBit = 0#32 := rfl
@[simp] theorem clearFields_fault (s : State) : (clearFields s).fault = 0#3 := rfl
@[simp] theorem clearFields_rsp (s : State) : (clearFields s).rsp = none := rfl
@[simp] theorem clearFields_host (s : State) : (clearFields s).host = s.host := rfl

/-! ### withHost -/

@[simp] theorem withHost_state (h : List HostAction) (s : State) : (withHost h s).state = s.state := rfl
@[simp] theorem withHost_poly (h : List HostAction) (s : State) : (withHost h s).poly = s.poly := rfl
@[simp] theorem withHost_mask (h : List HostAction) (s : State) : (withHost h s).mask = s.mask := rfl
@[simp] theorem withHost_degree (h : List HostAction) (s : State) : (withHost h s).degree = s.degree := rfl
@[simp] theorem withHost_highBit (h : List HostAction) (s : State) : (withHost h s).highBit = s.highBit := rfl
@[simp] theorem withHost_fault (h : List HostAction) (s : State) : (withHost h s).fault = s.fault := rfl
@[simp] theorem withHost_rsp (h : List HostAction) (s : State) : (withHost h s).rsp = s.rsp := rfl
@[simp] theorem withHost_host (h : List HostAction) (s : State) : (withHost h s).host = h := rfl

/-! ### The fields at reset -/

@[simp] theorem reset_state : State.reset.state = 0#32 := rfl
@[simp] theorem reset_poly : State.reset.poly = 0#32 := rfl
@[simp] theorem reset_mask : State.reset.mask = 0#32 := rfl
@[simp] theorem reset_degree : State.reset.degree = 0#6 := rfl
@[simp] theorem reset_highBit : State.reset.highBit = 0#32 := rfl
@[simp] theorem reset_fault : State.reset.fault = 0#3 := rfl
@[simp] theorem reset_rsp : State.reset.rsp = none := rfl
@[simp] theorem reset_host : State.reset.host = [] := rfl

/-! ### Updates that overwrite one another -/

@[simp] theorem loadState_loadState (u v : Word) (s : State) : loadState u (loadState v s) = loadState u s := rfl
@[simp] theorem loadPoly_loadState (p v : Word) (s : State) : loadPoly p (loadState v s) = loadPoly p s := rfl
@[simp] theorem loadPoly_loadPoly (p q : Word) (s : State) : loadPoly p (loadPoly q s) = loadPoly p s := rfl
@[simp] theorem answer_answer (u v : Word) (s : State) : answer u (answer v s) = answer u s := rfl
@[simp] theorem answer_endPulse (v : Word) (s : State) : answer v (endPulse s) = answer v s := rfl
@[simp] theorem endPulse_answer (v : Word) (s : State) : endPulse (answer v s) = endPulse s := rfl
@[simp] theorem endPulse_endPulse (s : State) : endPulse (endPulse s) = endPulse s := rfl
@[simp] theorem endPulse_latchFault (c : FaultCause) (s : State) : endPulse (latchFault c s) = latchFault c s := rfl
@[simp] theorem clearFields_clearFields (s : State) : clearFields (clearFields s) = clearFields s := rfl
@[simp] theorem withHost_withHost (g h : List HostAction) (s : State) : withHost g (withHost h s) = withHost g s := rfl

/-- Writing the register what it holds changes nothing. -/
@[simp] theorem loadState_self (s : State) : loadState s.state s = s := rfl

/-- Answering changes the six fields not at all, so it commutes with a write of the register. -/
theorem answer_loadState (u v : Word) (s : State) : answer u (loadState v s) = loadState v (answer u s) := rfl

end Sys2Proof.Machine
end

