-- ==== Sys2Proof/Laws/Ops.lean ====
section
/-! SUPPORT. One lemma per shared operation that says once everything it can do; the case split of what `exec` can
answer; and the small facts about the derived word functions and the shift engine that later proofs start from. -/

namespace Sys2Proof.Machine

/-! ### Conditions as propositions -/

theorem isFaulted_iff (s : State) : isFaulted s = true ↔ s.fault ≠ 0#3 := by simp [isFaulted]

theorem isFaulted_eq_false_iff (s : State) : isFaulted s = false ↔ s.fault = 0#3 := by simp [isFaulted]

theorem isConfigured_iff (s : State) : isConfigured s = true ↔ s.poly ≠ 0#32 := by simp [isConfigured]

theorem isConfigured_eq_false_iff (s : State) : isConfigured s = false ↔ s.poly = 0#32 := by simp [isConfigured]

/-- No fault's code is the code of no fault. -/
theorem causeCode_ne_zero (c : FaultCause) : causeCode c ≠ 0#3 := by cases c <;> decide

theorem causeCode_le (c : FaultCause) : (causeCode c).toNat ≤ 4 := by cases c <;> decide

/-- Two faults with the same code are the same fault. -/
theorem causeCode_injective {c d : FaultCause} (h : causeCode c = causeCode d) : c = d := by
  cases c <;> cases d <;> first | rfl | exact absurd h (by decide)

/-- After fault entry the block is Faulted. -/
@[simp] theorem isFaulted_latchFault (c : FaultCause) (s : State) : isFaulted (latchFault c s) = true :=
  (isFaulted_iff _).2 (causeCode_ne_zero c)

/-! ### The guards -/

theorem whenRunning_of_running {s : State} (h : s.fault = 0#3) (k : Result) : whenRunning s k = k := by
  simp [whenRunning, isFaulted, h]

theorem whenRunning_of_faulted {s : State} (h : s.fault ≠ 0#3) (k : Result) : whenRunning s k = .fault .halted := by
  simp [whenRunning, isFaulted, h]

theorem whenConfigured_of_configured {s : State} (h : s.poly ≠ 0#32) (k : Result) : whenConfigured s k = k := by
  simp [whenConfigured, isConfigured, h]

theorem whenConfigured_of_unconfigured {s : State} (h : s.poly = 0#32) (k : Result) :
    whenConfigured s k = raiseFault .unconfiguredUse s := by
  simp [whenConfigured, isConfigured, h]

/-- A guarded command answers a next state only from a running block, and then the command itself answers it. -/
theorem whenRunning_next {s t : State} {k : Result} (h : whenRunning s k = .next t) :
    s.fault = 0#3 ∧ k = .next t := by
  by_cases hf : s.fault = 0#3
  · exact ⟨hf, by rwa [whenRunning_of_running hf] at h⟩
  · rw [whenRunning_of_faulted hf] at h; cases h

/-- The Configured test either runs the command or raises UnconfiguredUse. -/
theorem whenConfigured_next {s t : State} {k : Result} (h : whenConfigured s k = .next t) :
    (s.poly ≠ 0#32 ∧ k = .next t) ∨ (s.poly = 0#32 ∧ t = latchFault .unconfiguredUse s) := by
  by_cases hp : s.poly = 0#32
  · rw [whenConfigured_of_unconfigured hp] at h
    exact .inr ⟨hp, by cases h; rfl⟩
  · exact .inl ⟨hp, by rwa [whenConfigured_of_configured hp] at h⟩

theorem respond_next {v : Word} {s t : State} (h : respond v s = .next t) : t = answer v s := by cases h; rfl

theorem raiseFault_next {c : FaultCause} {s t : State} (h : raiseFault c s = .next t) : t = latchFault c s := by
  cases h; rfl

@[simp] theorem nextOf_respond (v : Word) (s : State) : nextOf (respond v s) = some (answer v s) := rfl

@[simp] theorem nextOf_raiseFault (c : FaultCause) (s : State) : nextOf (raiseFault c s) = some (latchFault c s) := rfl

/-- Executing an illegal word latches IllegalCommand in a running block (R220). -/
theorem execIllegal_next {s t : State} (h : execIllegal s = .next t) :
    s.fault = 0#3 ∧ t = latchFault .illegalCommand s :=
  let ⟨hf, hk⟩ := whenRunning_next h
  ⟨hf, raiseFault_next hk⟩

/-! ### What one command can do -/

/-- The six fields a completed command can leave: all as they were, a new data register, or a new configuration. -/
inductive Completion (s : State) : State → Prop where
  | unchanged : Completion s s
  | register (v : Word) : s.poly ≠ 0#32 → Completion s (loadState v s)
  | configuration (p : Word) : p ≠ 0#32 → Completion s (loadPoly p s)

/-- Everything `exec` can do when it answers a next state: the block was running, and the command either entered a
fault or completed with one response. -/
theorem exec_next_cases {i : Instr} {s t : State} (h : exec i s = .next t) :
    s.fault = 0#3 ∧ ((∃ c, t = latchFault c s) ∨ ∃ v u, Completion s u ∧ t = answer v u) := by
  have read : ∀ {v : Word}, whenRunning s (respond v s) = .next t →
      s.fault = 0#3 ∧ ((∃ c, t = latchFault c s) ∨ ∃ v u, Completion s u ∧ t = answer v u) := by
    intro v h
    obtain ⟨hf, hk⟩ := whenRunning_next h
    exact ⟨hf, .inr ⟨v, s, .unchanged, respond_next hk⟩⟩
  have write : ∀ {v r : Word}, whenRunning s (whenConfigured s (respond r (loadState v s))) = .next t →
      s.fault = 0#3 ∧ ((∃ c, t = latchFault c s) ∨ ∃ v u, Completion s u ∧ t = answer v u) := by
    intro v r h
    obtain ⟨hf, hk⟩ := whenRunning_next h
    obtain ⟨hp, hk⟩ | ⟨-, rfl⟩ := whenConfigured_next hk
    · exact ⟨hf, .inr ⟨r, _, .register v hp, respond_next hk⟩⟩
    · exact ⟨hf, .inl ⟨_, rfl⟩⟩
  cases i with
  | setpoly p =>
    obtain ⟨hf, hk⟩ := whenRunning_next h
    refine ⟨hf, ?_⟩
    split at hk
    · exact .inl ⟨_, raiseFault_next hk⟩
    · rename_i hp
      exact .inr ⟨_, _, .configuration p hp, respond_next hk⟩
  | setstate v =>
    obtain ⟨hf, hk⟩ := whenRunning_next h
    refine ⟨hf, ?_⟩
    obtain ⟨hp, hk⟩ | ⟨-, rfl⟩ := whenConfigured_next hk
    · split at hk
      · exact .inl ⟨_, raiseFault_next hk⟩
      · exact .inr ⟨_, _, .register _ hp, respond_next hk⟩
    · exact .inl ⟨_, rfl⟩
  | step => exact write h
  | syncf x => exact write h
  | syncb x => exact write h
  | crcin b => exact write h
  | crcout => exact write h
  | rdstate => exact read h
  | rdpoly => exact read h
  | rdmask => exact read h
  | rdhbit => exact read h
  | rddegr => exact read h

/-- No command touches the host's list. -/
theorem exec_host {i : Instr} {s t : State} (h : exec i s = .next t) : t.host = s.host := by
  obtain ⟨-, ⟨c, rfl⟩ | ⟨v, u, hu, rfl⟩⟩ := exec_next_cases h
  · rfl
  · cases hu <;> rfl

/-- An accepted word either runs the command it decodes to, or latches IllegalCommand. -/
theorem acceptWord_next_cases {w : CommandWord} {s t : State} (h : acceptWord w s = .next t) :
    (∃ i, decode w = .ok i ∧ exec i s = .next t) ∨
      (∃ e, decode w = .error e ∧ s.fault = 0#3 ∧ t = latchFault .illegalCommand s) := by
  unfold acceptWord at h
  split at h
  · rename_i i hi
    exact .inl ⟨i, hi, h⟩
  · rename_i e he
    exact .inr ⟨e, he, execIllegal_next h⟩

/-- Everything a host action can do: reset, a word refused by a Faulted block, or an accepted word. -/
theorem hostAct_next_cases {a : HostAction} {s t : State} (h : hostAct a s = .next t) :
    (a = .reset ∧ t = clearFields s) ∨
      (∃ w, a = .command w ∧ s.fault ≠ 0#3 ∧ t = endPulse s) ∨
      (∃ w, a = .command w ∧ s.fault = 0#3 ∧ acceptWord w s = .next t) := by
  cases a with
  | reset => exact .inl ⟨rfl, by cases h; rfl⟩
  | command w =>
    simp only [hostAct, presentWord] at h
    split at h
    · rename_i hf
      exact .inr (.inl ⟨w, rfl, (isFaulted_iff s).1 hf, by cases h; rfl⟩)
    · rename_i hf
      exact .inr (.inr ⟨w, rfl, (isFaulted_eq_false_iff s).1 (by simpa using hf), h⟩)

theorem presentWord_of_running {s : State} (h : s.fault = 0#3) (w : CommandWord) :
    presentWord w s = acceptWord w s := by
  simp [presentWord, isFaulted, h]

theorem presentWord_of_faulted {s : State} (h : s.fault ≠ 0#3) (w : CommandWord) :
    presentWord w s = .next (endPulse s) := by
  simp [presentWord, isFaulted, h]

theorem acceptWord_of_decode {w : CommandWord} {i : Instr} (h : decode w = .ok i) (s : State) :
    acceptWord w s = exec i s := by
  simp [acceptWord, h]

theorem acceptWord_of_illegal {w : CommandWord} {e : IllegalWord} (h : decode w = .error e) {s : State}
    (hf : s.fault = 0#3) : acceptWord w s = .next (latchFault .illegalCommand s) := by
  simp only [acceptWord, h, execIllegal, whenRunning_of_running hf]
  rfl

/-! ### `bitlen`, `ones` and the response forms -/

@[simp] theorem bitlenBelow_zero (v : Word) : bitlenBelow v 0 = 0 := rfl

theorem bitlenBelow_succ (v : Word) (n : Nat) :
    bitlenBelow v (n + 1) = if v.getLsbD n then n + 1 else bitlenBelow v n := rfl

theorem bitlenBelow_le (v : Word) (n : Nat) : bitlenBelow v n ≤ n := by
  induction n with
  | zero => simp
  | succ n ih => rw [bitlenBelow_succ]; split <;> omega

/-- The bit just below a non-zero bit length is set. -/
theorem getLsbD_bitlenBelow (v : Word) (n : Nat) (h : bitlenBelow v n ≠ 0) :
    v.getLsbD (bitlenBelow v n - 1) = true := by
  induction n with
  | zero => simp at h
  | succ n ih =>
    rw [bitlenBelow_succ] at h ⊢
    split
    · assumption
    · rename_i hb; rw [if_neg hb] at h; exact ih h

/-- No bit from the bit length up is set, among the bits looked at. -/
theorem getLsbD_of_bitlenBelow_le (v : Word) {n j : Nat} (hj : j < n) (h : bitlenBelow v n ≤ j) :
    v.getLsbD j = false := by
  induction n with
  | zero => omega
  | succ n ih =>
    rw [bitlenBelow_succ] at h
    split at h
    · omega
    · rename_i hb
      rcases Nat.lt_succ_iff_lt_or_eq.1 hj with hj | rfl
      · exact ih hj h
      · simpa using hb

theorem bitlen_le (v : Word) : bitlen v ≤ 32 := bitlenBelow_le v 32

/-- No bit of `v` at or above its bit length is set. -/
theorem getLsbD_of_bitlen_le (v : Word) {j : Nat} (h : bitlen v ≤ j) : v.getLsbD j = false := by
  by_cases hj : j < 32
  · exact getLsbD_of_bitlenBelow_le v hj h
  · exact BitVec.getLsbD_of_ge v j (by omega)

@[simp] theorem bitlen_zero : bitlen 0#32 = 0 := by decide

theorem bitlen_eq_zero_iff (v : Word) : bitlen v = 0 ↔ v = 0#32 := by
  constructor
  · intro h
    apply BitVec.eq_of_getLsbD_eq
    intro j _
    rw [getLsbD_of_bitlen_le v (by omega)]
    simp
  · rintro rfl; exact bitlen_zero

/-- The top bit of a non-zero word is at its bit length less one. -/
theorem getLsbD_bitlen_sub_one {v : Word} (h : v ≠ 0#32) : v.getLsbD (bitlen v - 1) = true :=
  getLsbD_bitlenBelow v 32 fun h0 => h ((bitlen_eq_zero_iff v).1 h0)

/-- Six bits hold every bit length (R24). -/
@[simp] theorem toNat_bitlen_field (v : Word) : (BitVec.ofNat 6 (bitlen v)).toNat = bitlen v := by
  have := bitlen_le v
  rw [BitVec.toNat_ofNat, Nat.mod_eq_of_lt (by omega)]

/-- The bits of `ones n`: exactly those below `n`. -/
theorem getLsbD_ones {n : Nat} (h : n ≤ 32) (j : Nat) : (ones n).getLsbD j = decide (j < n) := by
  unfold ones
  rw [BitVec.getLsbD_ofNat, Nat.testBit_two_pow_sub_one]
  by_cases hj : j < n
  · simp [hj]; omega
  · simp [hj]

@[simp] theorem bitResponse_true : bitResponse true = 1#32 := by decide

@[simp] theorem bitResponse_false : bitResponse false = 0#32 := by decide

/-! ### The shift engine -/

theorem shiftXor_true (poly v : Word) : shiftXor poly true v = (v >>> 1) ^^^ poly := rfl

@[simp] theorem shiftXor_false (poly v : Word) : shiftXor poly false v = v >>> 1 := rfl

/-- The engine bit by bit: the next bit up, XOR the polynomial's bit where feedback is on. -/
theorem getLsbD_shiftXor (poly v : Word) (b : Bool) (j : Nat) :
    (shiftXor poly b v).getLsbD j = (v.getLsbD (j + 1) ^^ (b && poly.getLsbD j)) := by
  cases b
  · simp [BitVec.getLsbD_ushiftRight, Nat.add_comm]
  · simp [shiftXor_true, BitVec.getLsbD_ushiftRight, Nat.add_comm]

@[simp] theorem stepTimes_zero (poly v : Word) : stepTimes poly 0 v = v := rfl

theorem stepTimes_succ (poly v : Word) (n : Nat) :
    stepTimes poly (n + 1) v = stepTimes poly n (stepWord poly v) := rfl

@[simp] theorem syncfLoop_zero (poly x v : Word) : syncfLoop poly x v 0 = v := rfl

theorem syncfLoop_succ (poly x v : Word) (n : Nat) :
    syncfLoop poly x v (n + 1) = shiftXor poly (x.getLsbD n) (syncfLoop poly x v n) := rfl

@[simp] theorem syncbLoop_probe_zero (poly x v : Word) (n : Nat) : syncbLoop poly x n 0#32 v = v := by
  cases n <;> simp [syncbLoop]

theorem syncbLoop_succ (poly x h v : Word) (n : Nat) (hh : h ≠ 0#32) :
    syncbLoop poly x (n + 1) h v = syncbLoop poly x n (h >>> 1) (syncbIter poly x h v) := by
  simp [syncbLoop, hh]

/-- A probe below `2^n` is gone after `n` halvings: a larger bound changes nothing. -/
theorem syncbLoop_bound (poly x : Word) (n k : Nat) :
    ∀ h v : Word, h.toNat < 2 ^ n → syncbLoop poly x (n + k) h v = syncbLoop poly x n h v := by
  induction n with
  | zero =>
    intro h v hh
    have : h = 0#32 := BitVec.eq_of_toNat_eq (by simpa using hh)
    simp [this]
  | succ n ih =>
    intro h v hh
    by_cases h0 : h = 0#32
    · simp [h0]
    · rw [Nat.add_right_comm, syncbLoop_succ _ _ _ _ _ h0, syncbLoop_succ _ _ _ _ _ h0]
      apply ih
      rw [BitVec.toNat_ushiftRight, Nat.shiftRight_eq_div_pow]
      rw [Nat.pow_succ] at hh
      omega

/-- The bound of 32 in SYNCB never cuts its loop short: every larger bound gives the same result. -/
theorem syncbLoop_bound_32 (poly x h v : Word) (k : Nat) :
    syncbLoop poly x (32 + k) h v = syncbLoop poly x 32 h v :=
  syncbLoop_bound poly x 32 k h v h.isLt

end Sys2Proof.Machine
end

