-- ==== Sys2Proof/Laws/Step.lean ====
section
/-! SUPPORT. Everything one step of the machine can do, and the small equations of command sequences. -/

namespace Sys2Proof.Machine

/-- Everything `step` can do: idle, reset, a word not accepted by a Faulted block, or an accepted word. -/
theorem step_next_cases {s t : State} (h : step s = .next t) :
    (s.host = [] ∧ t = endPulse s) ∨
      (∃ rest, s.host = .reset :: rest ∧ t = clearFields (withHost rest s)) ∨
      (∃ w rest, s.host = .command w :: rest ∧ s.fault ≠ 0#3 ∧ t = endPulse (withHost rest s)) ∨
      (∃ w rest, s.host = .command w :: rest ∧ s.fault = 0#3 ∧ acceptWord w (withHost rest s) = .next t) := by
  unfold step at h
  split at h
  · rename_i hh
    exact .inl ⟨hh, by cases h; rfl⟩
  · rename_i a rest hh
    obtain ⟨rfl, rfl⟩ | ⟨w, rfl, hf, rfl⟩ | ⟨w, rfl, hf, ht⟩ := hostAct_next_cases h
    · exact .inr (.inl ⟨rest, hh, rfl⟩)
    · exact .inr (.inr (.inl ⟨w, rest, hh, hf, rfl⟩))
    · exact .inr (.inr (.inr ⟨w, rest, hh, hf, ht⟩))

theorem step_of_idle {s : State} (h : s.host = []) : step s = .next (endPulse s) := by
  unfold step; rw [h]

theorem step_of_action {s : State} {a : HostAction} {rest : List HostAction} (h : s.host = a :: rest) :
    step s = hostAct a (withHost rest s) := by
  unfold step; rw [h]

/-- One step of a run, for any machine of the host's interface. -/
theorem core_run_succ (M : Host.Core) {s t : M.State} (h : M.step s = .next t) (n : Nat) :
    M.run (n + 1) s = M.run n t := by
  rw [Host.Core.run, h]

/-- One step of a run of the block. -/
theorem run_of_step {s t : State} (h : step s = .next t) (n : Nat) :
    Host.Core.run Sys2Proof.core (n + 1) s = Host.Core.run Sys2Proof.core n t :=
  core_run_succ Sys2Proof.core h n

@[simp] theorem runAll_nil (s : State) : runAll [] s = some ([], s) := rfl

/-- One completed command at the head of a sequence. -/
theorem runAll_cons {i : Instr} {is : List Instr} {s t : State} {v : Word} (h : exec i s = .next t)
    (hv : t.rsp = some v) : runAll (i :: is) s = (runAll is t).map fun r => (v :: r.1, r.2) := by
  simp only [runAll, h, nextOf, hv]

@[simp] theorem presented_nil (rest : List HostAction) : presented [] rest = rest := rfl

@[simp] theorem presented_cons (i : Instr) (is : List Instr) (rest : List HostAction) :
    presented (i :: is) rest = .command (encode i) :: presented is rest := rfl

end Sys2Proof.Machine
end

