-- ==== Sys2Proof/Laws/Commands.lean ====
section
/-! SUPPORT. One equation per command and case of its rule, in the model's own operations: what `exec` answers on a
running block, so that no later proof unfolds a meaning. -/

namespace Sys2Proof.Machine

variable {s : State}

theorem exec_of_faulted (h : s.fault ≠ 0#3) (i : Instr) : exec i s = .fault .halted := by
  cases i <;> exact whenRunning_of_faulted h _

/-! ### The accessors -/

theorem exec_rdstate (h : s.fault = 0#3) : exec .rdstate s = .next (answer s.state s) := whenRunning_of_running h _

theorem exec_rdpoly (h : s.fault = 0#3) : exec .rdpoly s = .next (answer s.poly s) := whenRunning_of_running h _

theorem exec_rdmask (h : s.fault = 0#3) : exec .rdmask s = .next (answer s.mask s) := whenRunning_of_running h _

theorem exec_rdhbit (h : s.fault = 0#3) : exec .rdhbit s = .next (answer s.highBit s) := whenRunning_of_running h _

theorem exec_rddegr (h : s.fault = 0#3) : exec .rddegr s = .next (answer (degreeResponse s.degree) s) :=
  whenRunning_of_running h _

/-! ### SETPOLY -/

theorem exec_setpoly (h : s.fault = 0#3) {p : Word} (hp : p ≠ 0#32) :
    exec (.setpoly p) s = .next (answer voidResponse (loadPoly p s)) :=
  (whenRunning_of_running h _).trans (if_neg hp)

theorem exec_setpoly_zero (h : s.fault = 0#3) :
    exec (.setpoly 0#32) s = .next (latchFault .invalidPolynomial s) :=
  whenRunning_of_running h _

/-! ### The six other mutating commands on a Configured block -/

theorem exec_setstate (h : s.fault = 0#3) (hp : s.poly ≠ 0#32) {v : Word} (hv : v &&& s.mask ≠ 0#32) :
    exec (.setstate v) s = .next (answer voidResponse (loadState (v &&& s.mask) s)) :=
  (whenRunning_of_running h _).trans ((whenConfigured_of_configured hp _).trans (if_neg hv))

theorem exec_setstate_zero (h : s.fault = 0#3) (hp : s.poly ≠ 0#32) {v : Word} (hv : v &&& s.mask = 0#32) :
    exec (.setstate v) s = .next (latchFault .invalidState s) :=
  (whenRunning_of_running h _).trans ((whenConfigured_of_configured hp _).trans (if_pos hv))

theorem exec_step (h : s.fault = 0#3) (hp : s.poly ≠ 0#32) :
    exec .step s = .next (answer (bitResponse (s.state.getLsbD 0)) (loadState (stepWord s.poly s.state) s)) :=
  (whenRunning_of_running h _).trans (whenConfigured_of_configured hp _)

theorem exec_syncf (h : s.fault = 0#3) (hp : s.poly ≠ 0#32) (x : Word) :
    exec (.syncf x) s =
      .next (answer voidResponse (loadState (syncfLoop s.poly x s.state s.degree.toNat) s)) :=
  (whenRunning_of_running h _).trans (whenConfigured_of_configured hp _)

theorem exec_syncb (h : s.fault = 0#3) (hp : s.poly ≠ 0#32) (x : Word) :
    exec (.syncb x) s =
      .next (answer voidResponse (loadState ((syncbLoop s.poly x 32 s.highBit 0#32 ^^^ x) &&& s.mask) s)) :=
  (whenRunning_of_running h _).trans (whenConfigured_of_configured hp _)

theorem exec_crcin (h : s.fault = 0#3) (hp : s.poly ≠ 0#32) (b : Bool) :
    exec (.crcin b) s =
      .next (answer voidResponse (loadState (shiftXor s.poly (s.state.getLsbD 0 ^^ b) s.state) s)) :=
  (whenRunning_of_running h _).trans (whenConfigured_of_configured hp _)

theorem exec_crcout (h : s.fault = 0#3) (hp : s.poly ≠ 0#32) :
    exec .crcout s = .next (answer (bitResponse (s.state.getLsbD 0)) (loadState (s.state >>> 1) s)) :=
  (whenRunning_of_running h _).trans (whenConfigured_of_configured hp _)

/-- The six mutating commands other than SETPOLY (the second row of R220). -/
def NeedsConfigured : Instr → Prop
  | .setpoly _ => False
  | .setstate _ => True
  | .step => True
  | .syncf _ => True
  | .syncb _ => True
  | .crcin _ => True
  | .crcout => True
  | .rdstate => False
  | .rdpoly => False
  | .rdmask => False
  | .rdhbit => False
  | .rddegr => False

/-- On an Unconfigured block each of the six raises UnconfiguredUse, before anything else it could raise. -/
theorem exec_of_unconfigured (h : s.fault = 0#3) (hp : s.poly = 0#32) {i : Instr} (hi : NeedsConfigured i) :
    exec i s = .next (latchFault .unconfiguredUse s) := by
  cases i <;> first
    | exact hi.elim
    | exact (whenRunning_of_running h _).trans (whenConfigured_of_unconfigured hp _)

/-! ### What a command does not look at -/

theorem nextOf_eq_some_iff {r : Result} {t : State} : nextOf r = some t ↔ r = .next t := by
  cases r <;> simp [nextOf]

/-- A running block has a next state under every command: a fault of the block is one too. -/
theorem exec_of_running (h : s.fault = 0#3) (i : Instr) : ∃ t, exec i s = .next t := by
  have guard : ∀ {k : Result}, (∃ t, k = .next t) → ∃ t, whenRunning s (whenConfigured s k) = .next t := by
    intro k hk
    rw [whenRunning_of_running h]
    by_cases hp : s.poly = 0#32
    · exact ⟨_, whenConfigured_of_unconfigured hp k⟩
    · rwa [whenConfigured_of_configured hp]
  cases i with
  | setpoly p =>
    by_cases hp : p = 0#32
    · subst hp; exact ⟨_, exec_setpoly_zero h⟩
    · exact ⟨_, exec_setpoly h hp⟩
  | setstate v => exact guard (by split <;> exact ⟨_, rfl⟩)
  | step => exact guard ⟨_, rfl⟩
  | syncf x => exact guard ⟨_, rfl⟩
  | syncb x => exact guard ⟨_, rfl⟩
  | crcin b => exact guard ⟨_, rfl⟩
  | crcout => exact guard ⟨_, rfl⟩
  | rdstate => exact ⟨_, exec_rdstate h⟩
  | rdpoly => exact ⟨_, exec_rdpoly h⟩
  | rdmask => exact ⟨_, exec_rdmask h⟩
  | rdhbit => exact ⟨_, exec_rdhbit h⟩
  | rddegr => exact ⟨_, exec_rddegr h⟩

/-- So has it under every accepted word, legal or not. -/
theorem acceptWord_of_running (h : s.fault = 0#3) (w : CommandWord) : ∃ t, acceptWord w s = .next t := by
  unfold acceptWord
  split
  · exact exec_of_running h _
  · exact ⟨_, whenRunning_of_running h _⟩

/-- No command looks at the response port. -/
theorem exec_endPulse (i : Instr) (s : State) : exec i (endPulse s) = exec i s := by cases i <;> rfl

theorem exec_answer (i : Instr) (v : Word) (s : State) : exec i (answer v s) = exec i s := by cases i <;> rfl

theorem acceptWord_endPulse (w : CommandWord) (s : State) : acceptWord w (endPulse s) = acceptWord w s := by
  unfold acceptWord
  split
  · exact exec_endPulse _ _
  · rfl

theorem nextOf_whenRunning_withHost (h : List HostAction) (s : State) {k k' : Result}
    (hk : nextOf k' = (nextOf k).map (withHost h)) :
    nextOf (whenRunning (withHost h s) k') = (nextOf (whenRunning s k)).map (withHost h) := by
  unfold whenRunning
  rw [show isFaulted (withHost h s) = isFaulted s from rfl]
  split
  · rfl
  · exact hk

theorem nextOf_whenConfigured_withHost (h : List HostAction) (s : State) {k k' : Result}
    (hk : nextOf k' = (nextOf k).map (withHost h)) :
    nextOf (whenConfigured (withHost h s) k') = (nextOf (whenConfigured s k)).map (withHost h) := by
  unfold whenConfigured
  rw [show isConfigured (withHost h s) = isConfigured s from rfl]
  split
  · exact hk
  · rfl

/-- No command looks at what the host does next: it commutes with a change of the host's list. -/
theorem exec_withHost (i : Instr) (h : List HostAction) (s : State) :
    nextOf (exec i (withHost h s)) = (nextOf (exec i s)).map (withHost h) := by
  cases i with
  | setpoly p => exact nextOf_whenRunning_withHost h s (by split <;> rfl)
  | setstate v =>
    exact nextOf_whenRunning_withHost h s
      (nextOf_whenConfigured_withHost h s (by rw [withHost_mask]; split <;> rfl))
  | step => exact nextOf_whenRunning_withHost h s (nextOf_whenConfigured_withHost h s rfl)
  | syncf x => exact nextOf_whenRunning_withHost h s (nextOf_whenConfigured_withHost h s rfl)
  | syncb x => exact nextOf_whenRunning_withHost h s (nextOf_whenConfigured_withHost h s rfl)
  | crcin b => exact nextOf_whenRunning_withHost h s (nextOf_whenConfigured_withHost h s rfl)
  | crcout => exact nextOf_whenRunning_withHost h s (nextOf_whenConfigured_withHost h s rfl)
  | rdstate => exact nextOf_whenRunning_withHost h s rfl
  | rdpoly => exact nextOf_whenRunning_withHost h s rfl
  | rdmask => exact nextOf_whenRunning_withHost h s rfl
  | rdhbit => exact nextOf_whenRunning_withHost h s rfl
  | rddegr => exact nextOf_whenRunning_withHost h s rfl

end Sys2Proof.Machine
end

