-- ==== Sys2Proof/Laws/Decode.lean ====
section
/-! SUPPORT. Field extraction from an encoded word, and that no two rows of the opcode table overlap. -/

namespace Sys2Proof

/-- A word laid out from its fields, as a number (R72). -/
theorem toNat_fields (op : BitVec 4) (arg : Word) :
    (op ++ arg : BitVec (4 + 32)).toNat = op.toNat * 2 ^ 32 + arg.toNat := by
  rw [BitVec.toNat_append, ← Nat.shiftLeft_add_eq_or_of_lt arg.isLt, Nat.shiftLeft_eq]

theorem toNat_wordOp (w : CommandWord) : (wordOp w).toNat = w.toNat / 2 ^ 32 := by
  have h := w.isLt
  simp only [wordOp, BitVec.extractLsb'_toNat, Nat.shiftRight_eq_div_pow]
  omega

theorem toNat_wordArg (w : CommandWord) : (wordArg w).toNat = w.toNat % 2 ^ 32 := by
  simp only [wordArg, BitVec.extractLsb'_toNat, Nat.shiftRight_zero]

@[simp] theorem wordOp_append (op : BitVec 4) (arg : Word) : wordOp (op ++ arg) = op := by
  have h := arg.isLt
  apply BitVec.eq_of_toNat_eq
  rw [toNat_wordOp, toNat_fields]
  omega

@[simp] theorem wordArg_append (op : BitVec 4) (arg : Word) : wordArg (op ++ arg) = arg := by
  have h := arg.isLt
  apply BitVec.eq_of_toNat_eq
  rw [toNat_wordArg, toNat_fields]
  omega

@[simp] theorem wordOp_encode (i : Instr) : wordOp (encode i) = opcodeOf i := wordOp_append _ _

@[simp] theorem wordArg_encode (i : Instr) : wordArg (encode i) = operandOf i := wordArg_append _ _

/-- A word is its two fields (R72). -/
theorem append_fields (w : CommandWord) : (wordOp w ++ wordArg w : BitVec (4 + 32)) = w := by
  apply BitVec.eq_of_toNat_eq
  rw [toNat_fields, toNat_wordOp, toNat_wordArg]
  omega

/-- Two different rows disagree on a bit that both of them fix, so no word belongs to both. -/
theorem opcodeTable_disjoint :
    opcodeTable.Pairwise fun r q => r.pattern &&& q.mask &&& r.mask ≠ q.pattern &&& r.mask &&& q.mask := by
  decide

end Sys2Proof
end

