-- ==== Sys2Proof/Laws/Invariant.lean ====
section
/-! SUPPORT. What the structural invariant says bit by bit, and that the shift engine keeps a register within its
mask: the facts every proof about a Configured block starts from. -/

namespace Sys2Proof.Machine

/-- A word is within `n` ones exactly when no bit at or above `n` is set. -/
theorem and_ones_eq_iff {n : Nat} (hn : n ≤ 32) (v : Word) :
    v &&& ones n = v ↔ ∀ j, n ≤ j → v.getLsbD j = false := by
  constructor
  · intro h j hj
    rw [← h, BitVec.getLsbD_and, getLsbD_ones hn]
    simp; omega
  · intro h
    apply BitVec.eq_of_getLsbD_eq
    intro j _
    rw [BitVec.getLsbD_and, getLsbD_ones hn]
    by_cases hj : n ≤ j
    · simp [h j hj]
    · simp; omega

/-- A non-zero polynomial lies within the mask of its own degree. -/
theorem and_ones_bitlen (p : Word) : p &&& ones (bitlen p) = p :=
  (and_ones_eq_iff (bitlen_le p) p).2 fun _ hj => getLsbD_of_bitlen_le p hj

theorem bitlen_pos {p : Word} (h : p ≠ 0#32) : 1 ≤ bitlen p :=
  Nat.one_le_iff_ne_zero.2 fun h0 => h ((bitlen_eq_zero_iff p).1 h0)

/-- What R32 says of a Configured block: its degree, its mask, and the extent of its polynomial and its register. -/
theorem configured_of_inv {s : State} (h : FieldsInv s) (hp : s.poly ≠ 0#32) : ConfiguredFields s :=
  h.resolve_left fun hu => hp hu.1

theorem degree_le_of_inv {s : State} (h : FieldsInv s) : s.degree.toNat ≤ 32 := by
  obtain hu | hc := h
  · simp [hu.2.2.1]
  · rw [hc.2.1]; exact bitlen_le _

theorem state_bits_of_inv {s : State} (h : FieldsInv s) {j : Nat} (hj : s.degree.toNat ≤ j) :
    s.state.getLsbD j = false := by
  have hd := degree_le_of_inv h
  obtain hu | hc := h
  · simp [hu.2.2.2.2]
  · exact (and_ones_eq_iff hd _).1 (by rw [← hc.2.2.1]; exact hc.2.2.2.2.2.2) j hj

theorem poly_bits_of_inv {s : State} (h : FieldsInv s) {j : Nat} (hj : s.degree.toNat ≤ j) :
    s.poly.getLsbD j = false := by
  have hd := degree_le_of_inv h
  obtain hu | hc := h
  · simp [hu.1]
  · exact (and_ones_eq_iff hd _).1 (by rw [← hc.2.2.1]; exact hc.2.2.2.2.2.1) j hj

/-- One position of the engine keeps a word below `2^n` when the polynomial is below `2^n` (R193). -/
theorem shiftXor_bits {poly v : Word} {n : Nat} (hp : ∀ j, n ≤ j → poly.getLsbD j = false)
    (hv : ∀ j, n ≤ j → v.getLsbD j = false) (b : Bool) {j : Nat} (hj : n ≤ j) :
    (shiftXor poly b v).getLsbD j = false := by
  rw [getLsbD_shiftXor, hv _ (by omega), hp j hj]
  simp

/-- SETPOLY establishes the invariant directly (R193). -/
theorem inv_loadPoly {p : Word} (hp : p ≠ 0#32) (s : State) : ConfiguredFields (loadPoly p s) := by
  have hl := bitlen_le p
  have h1 := bitlen_pos hp
  refine ⟨hp, toNat_bitlen_field p, ?_, ?_, ?_, and_ones_bitlen p, BitVec.and_self⟩
  · simp only [loadPoly_mask, loadPoly_degree, toNat_bitlen_field]
  · simp only [loadPoly_highBit, loadPoly_degree, toNat_bitlen_field]
    have : ∀ d, d < 33 → 1 ≤ d → topBit (ones d) = 1#32 <<< (d - 1) := by decide
    exact this _ (by omega) h1
  · simp only [loadPoly_poly, loadPoly_degree, toNat_bitlen_field]
    exact getLsbD_bitlen_sub_one hp

end Sys2Proof.Machine
end

