-- ==== Sys2Proof/Laws/PerInstr.lean ====
section
/-! SUPPORT. Statements about every instruction as syntax, one lemma per constructor. -/

namespace Sys2Proof.Laws.EncodeLegal

/-- The encoded word has the opcode of R72 in its top four bits and the operand below, and is legal by the
enumeration of R77. -/
def Statement (i : Instr) : Prop :=
  wordOp (encode i) = opcodeOf i ∧ wordArg (encode i) = operandOf i ∧ legalWord (encode i) = true

/-- A word whose opcode takes a whole operand is legal whatever the operand (R74). -/
theorem legal_of_operand {op : BitVec 4} (arg : Word)
    (h : op = 1#4 ∨ op = 2#4 ∨ op = 4#4 ∨ op = 5#4) : legalWord (op ++ arg) = true := by
  have ha := arg.isLt
  have hop : op.toNat = 1 ∨ op.toNat = 2 ∨ op.toNat = 4 ∨ op.toNat = 5 := by
    rcases h with rfl | rfl | rfl | rfl <;> simp
  have hd : (op ++ arg : BitVec (4 + 32)).toNat / 2 ^ 32 = op.toNat := by
    rw [toNat_fields]; omega
  simp only [legalWord, opcodeAssigned, unusedOperandZero, crcOperandIsBit, Bool.and_eq_true, decide_eq_true_eq]
  refine ⟨⟨?_, fun hc => ?_⟩, fun hc => ?_⟩ <;> omega

theorem setpoly (p : Word) : Statement (.setpoly p) :=
  ⟨wordOp_encode _, wordArg_encode _, legal_of_operand p (.inl rfl)⟩

theorem setstate (v : Word) : Statement (.setstate v) :=
  ⟨wordOp_encode _, wordArg_encode _, legal_of_operand v (.inr (.inl rfl))⟩

theorem step : Statement .step := ⟨wordOp_encode _, wordArg_encode _, by decide⟩

theorem syncf (x : Word) : Statement (.syncf x) :=
  ⟨wordOp_encode _, wordArg_encode _, legal_of_operand x (.inr (.inr (.inl rfl)))⟩

theorem syncb (x : Word) : Statement (.syncb x) :=
  ⟨wordOp_encode _, wordArg_encode _, legal_of_operand x (.inr (.inr (.inr rfl)))⟩

theorem crcin (b : Bool) : Statement (.crcin b) :=
  ⟨wordOp_encode _, wordArg_encode _, by cases b <;> decide⟩

theorem crcout : Statement .crcout := ⟨wordOp_encode _, wordArg_encode _, by decide⟩

theorem rdstate : Statement .rdstate := ⟨wordOp_encode _, wordArg_encode _, by decide⟩

theorem rdpoly : Statement .rdpoly := ⟨wordOp_encode _, wordArg_encode _, by decide⟩

theorem rdmask : Statement .rdmask := ⟨wordOp_encode _, wordArg_encode _, by decide⟩

theorem rdhbit : Statement .rdhbit := ⟨wordOp_encode _, wordArg_encode _, by decide⟩

theorem rddegr : Statement .rddegr := ⟨wordOp_encode _, wordArg_encode _, by decide⟩

end Sys2Proof.Laws.EncodeLegal
end

