-- ==== Sys2Proof/Laws/PowerUp.lean ====
section
/-! SUPPORT. What one edge and a list of edges do to a block with power applied, before and after its first reset,
and what the two obligations of R252 say of the head of a list. -/

namespace Sys2Proof.Machine

/-- A reset edge leaves the same block whatever was in it. -/
theorem edge_of_rst {i : PortsIn} (h : i.rst = true) (c : Clocked) :
    edge i c = ⟨clearFields c.block, none⟩ := by simp [edge, h]

/-- The first reset edge: nothing of the unspecified values is left. -/
theorem poweredEdge_of_rst {i : PortsIn} (h : i.rst = true) (n : Nat) :
    poweredEdge i (.unreset n) = .initialised ⟨State.reset, none⟩ := by
  simp only [poweredEdge, h, if_true, edge_of_rst]
  rfl

/-- An edge without reset leaves an unreset block unspecified, at its next instant. -/
theorem poweredEdge_of_not_rst {i : PortsIn} (h : i.rst = false) (n : Nat) :
    poweredEdge i (.unreset n) = .unreset (n + 1) := by simp [poweredEdge, h]

@[simp] theorem poweredEdge_initialised (i : PortsIn) (c : Clocked) :
    poweredEdge i (.initialised c) = .initialised (edge i c) := rfl

@[simp] theorem poweredEdges_nil (p : Powered) : poweredEdges [] p = p := rfl

@[simp] theorem poweredEdges_cons (i : PortsIn) (is : List PortsIn) (p : Powered) :
    poweredEdges (i :: is) p = poweredEdges is (poweredEdge i p) := rfl

theorem poweredEdges_append (is js : List PortsIn) (p : Powered) :
    poweredEdges (is ++ js) p = poweredEdges js (poweredEdges is p) := by
  induction is generalizing p with
  | nil => rfl
  | cons i is ih => exact ih _

/-- Once reset, a block with power applied is the clocked block. -/
theorem poweredEdges_initialised (is : List PortsIn) (c : Clocked) :
    poweredEdges is (.initialised c) = .initialised (edges is c) := by
  induction is generalizing c with
  | nil => rfl
  | cons i is ih => exact ih _

/-- The handshake of a block that has been reset is that of the clocked block. -/
theorem poweredAccepts_initialised (i : PortsIn) (c : Clocked) :
    poweredAccepts i (.initialised c) = acceptsAt i c := by
  simp only [poweredAccepts, poweredPorts, clockedPorts, acceptsAt, cmdReady]
  cases i.rst <;> cases i.cmdValid <;> rfl

theorem obeysPowerUp_cons (i : PortsIn) (is : List PortsIn) :
    obeysPowerUp (i :: is) = true ↔ i.cmdValid = false ∧ (i.rst = true ∨ obeysPowerUp is = true) := by
  simp [obeysPowerUp]

/-- A list of transactions that obeys R252 is empty or starts with a reset. -/
theorem resetComesFirst_cases {h : List HostAction} (hh : resetComesFirst h = true) :
    h = [] ∨ ∃ rest, h = .reset :: rest := by
  match h, hh with
  | [], _ => exact .inl rfl
  | .reset :: rest, _ => exact .inr ⟨rest, rfl⟩

end Sys2Proof.Machine
end

