-- ==== Sys2Proof/Tests/Slice0.lean ====
section
/-! SUPPORT. The model's own tests: expected values from spec/95_test_vectors.md and the rules it cites, and, for each
statement with hypotheses, a concrete state and operands that meet them. -/

namespace Sys2Proof.Tests

open Sys2Proof.Machine

/-! ### States -/

/-- "G8 state" of 95_test_vectors.md section 2.7: what SETPOLY 0x8E leaves. -/
def g8 : State :=
  { state := 0xFF#32, poly := 0x8E#32, mask := 0xFF#32, degree := 8#6, highBit := 0x80#32, fault := 0#3,
    rsp := none, host := [] }

/-- The smallest configuration, degree 1. -/
def g1 : State :=
  { g8 with state := 1#32, poly := 1#32, mask := 1#32, degree := 1#6, highBit := 1#32 }

/-- A configuration of the largest degree, 32. -/
def g32 : State :=
  { g8 with
    state := 0xFFFFFFFF#32, poly := 0x80000057#32, mask := 0xFFFFFFFF#32, degree := 32#6,
    highBit := 0x80000000#32 }

/-- A block with this in its register. -/
def holding (v : Word) (s : State) : State := { s with state := v }

/-- A block whose host does these things next. -/
def offered (h : List HostAction) (s : State) : State := { s with host := h }

/-- A Faulted block. -/
def faulted : State := { g8 with fault := 3#3 }

/-- The register after a command, where there is a next state. -/
def stateAfter (i : Instr) (s : State) : Option Word := (nextOf (exec i s)).map State.state

/-- The response of a command. -/
def responseTo (i : Instr) (s : State) : Option Word := (nextOf (exec i s)).bind State.rsp

/-- The fault field after a command. -/
def faultAfter (i : Instr) (s : State) : Option (BitVec 3) := (nextOf (exec i s)).map State.fault

/-! ### Well-formedness: each check refuses an ill-formed word -/

theorem test_opcodeAssigned_refuses : opcodeAssigned 0x0000000FF#36 = false ∧ opcodeAssigned 0xD00000000#36 = false := by
  decide

theorem test_unusedOperandZero_refuses :
    unusedOperandZero 0x300000001#36 = false ∧ unusedOperandZero 0xC00000020#36 = false := by decide

theorem test_crcOperandIsBit_refuses : crcOperandIsBit 0x600000002#36 = false := by decide

theorem test_legalWord_refuses :
    legalWord 0x000000000#36 = false ∧ legalWord 0x900000100#36 = false ∧ legalWord 0x680000000#36 = false ∧
      legalWord 0x1FFFFFFFF#36 = true ∧ legalWord 0x600000001#36 = true := by decide

/-! ### Decoding: one word of each constructor, written out from R72 as opcode bits and operand bits -/

theorem test_decode_setpoly : decode 0b000100000000000000000000000010001110#36 = .ok (.setpoly 0x8E#32) := rfl

theorem test_decode_setstate : decode 0b001000000000000000000001001000110100#36 = .ok (.setstate 0x1234#32) := rfl

theorem test_decode_step : decode 0b001100000000000000000000000000000000#36 = .ok .step := rfl

theorem test_decode_syncf : decode 0b010011111111111111111111111111111111#36 = .ok (.syncf 0xFFFFFFFF#32) := rfl

theorem test_decode_syncb : decode 0b010111011110101011011011111011101111#36 = .ok (.syncb 0xDEADBEEF#32) := rfl

theorem test_decode_crcin :
    decode 0b011000000000000000000000000000000001#36 = .ok (.crcin true) ∧
      decode 0b011000000000000000000000000000000000#36 = .ok (.crcin false) := ⟨rfl, rfl⟩

theorem test_decode_crcout : decode 0b011100000000000000000000000000000000#36 = .ok .crcout := rfl

theorem test_decode_rdstate : decode 0b100000000000000000000000000000000000#36 = .ok .rdstate := rfl

theorem test_decode_rdpoly : decode 0b100100000000000000000000000000000000#36 = .ok .rdpoly := rfl

theorem test_decode_rdmask : decode 0b101000000000000000000000000000000000#36 = .ok .rdmask := rfl

theorem test_decode_rdhbit : decode 0b101100000000000000000000000000000000#36 = .ok .rdhbit := rfl

theorem test_decode_rddegr : decode 0b110000000000000000000000000000000000#36 = .ok .rddegr := rfl

theorem test_decode_reserved :
    decode 0x000000000#36 = .error .reservedOpcode ∧ decode 0xFFFFFFFFF#36 = .error .reservedOpcode ∧
      decode 0x380000000#36 = .error .reservedBits ∧ decode 0x600000003#36 = .error .reservedBits := ⟨rfl, rfl, rfl, rfl⟩

theorem test_decodeTableWord :
    decodeTableWord 40 0x4000000A5 = some (.syncf 0xA5#32) ∧ decodeTableWord 40 0xD00000000 = none ∧
      decodeTableWord 40 0x1000000000 = none := by decide

/-! ### Commands (95_test_vectors.md sections 2.1 to 2.6) -/

theorem test_setpoly_degree9 :
    nextOf (exec (.setpoly 0x100#32) faulted) = none ∧
      nextOf (exec (.setpoly 0x100#32) g8) = some { g8 with
        state := 0x1FF#32, poly := 0x100#32, mask := 0x1FF#32, degree := 9#6, highBit := 0x100#32,
        rsp := some 0#32 } := by decide

theorem test_setpoly_zero_keeps_configuration :
    nextOf (exec (.setpoly 0#32) g8) = some { g8 with fault := 1#3 } := by decide

theorem test_setstate_masks :
    stateAfter (.setstate 0x1234#32) g8 = some 0x34#32 ∧ stateAfter (.setstate 0x80000000#32) g32 = some 0x80000000#32 := by
  decide

theorem test_setstate_faults :
    nextOf (exec (.setstate 0xFFFFFF00#32) g8) = some { g8 with fault := 3#3 } ∧
      faultAfter (.setstate 0#32) State.reset = some 2#3 := by decide

theorem test_step_degree32 :
    stateAfter .step g32 = some 0xFFFFFFA8#32 ∧ stateAfter .step (holding 0xFFFFFFA8#32 g32) = some 0x7FFFFFD4#32 := by
  decide

theorem test_step_emits_before_shift :
    responseTo .step (holding 0xF6#32 g8) = some 0#32 ∧ stateAfter .step (holding 0xF6#32 g8) = some 0x7B#32 := by decide

theorem test_syncf_vectors :
    stateAfter (.syncf 0xFFFFFFA5#32) g8 = some 0xA8#32 ∧ stateAfter (.syncf 0xDEADBEEF#32) g32 = some 0xDEADBE9F#32 := by
  decide

theorem test_syncf_zero_no_fault :
    stateAfter (.syncf 0x100#32) g8 = some 0#32 ∧ faultAfter (.syncf 0x100#32) g8 = some 0#3 := by decide

theorem test_syncb_vectors :
    stateAfter (.syncb 0xFFFFFFA5#32) g8 = some 0x49#32 ∧ stateAfter (.syncb 0xDEADBEEF#32) g32 = some 0x6F456595#32 := by
  decide

theorem test_syncb_degree1 :
    stateAfter (.syncb 3#32) g1 = some 1#32 ∧ stateAfter (.syncb 2#32) g1 = some 0#32 := by decide

theorem test_crcin_vectors :
    stateAfter (.crcin true) (holding 0x80#32 g8) = some 0xCE#32 ∧
      stateAfter (.crcin false) (holding 0x80#32 g8) = some 0x40#32 := by decide

theorem test_crcin_enters_and_leaves_zero :
    stateAfter (.crcin true) (holding 1#32 g8) = some 0#32 ∧
      stateAfter (.crcin true) (holding 0#32 g8) = some 0x8E#32 := by decide

theorem test_crcout_no_feedback :
    stateAfter .crcout g8 = some 0x7F#32 ∧ responseTo .crcout g8 = some 1#32 := by decide

theorem test_rdstate : responseTo .rdstate (holding 0xF1#32 g8) = some 0xF1#32 := by decide

theorem test_rdpoly : responseTo .rdpoly g8 = some 0x8E#32 ∧ responseTo .rdpoly State.reset = some 0#32 := by decide

theorem test_rdmask : responseTo .rdmask g32 = some 0xFFFFFFFF#32 := by decide

theorem test_rdhbit : responseTo .rdhbit g32 = some 0x80000000#32 ∧ responseTo .rdhbit State.reset = some 0#32 := by
  decide

theorem test_rddegr : responseTo .rddegr g32 = some 0x20#32 ∧ responseTo .rddegr g8 = some 8#32 := by decide

/-! ### The step (95_test_vectors.md section 2.7) -/

theorem test_step_illegal_before_unconfigured :
    nextOf (step (State.reset.withFetchWord 40 0x300000001)) = some { State.reset with fault := 4#3 } := by decide

theorem test_step_first_command :
    (nextOf (step (State.reset.withFetchWord 40 0x10000008E))).map State.degree = some 8#6 := by decide

theorem test_step_faulted_accepts_nothing :
    nextOf (step (offered [.command 0x800000000#36, .reset] faulted)) = some (offered [.reset] faulted) := by decide

theorem test_step_reset_leaves_faulted :
    nextOf (step (offered [.reset, .command 0x10000008E#36] faulted)) =
      some (offered [.command 0x10000008E#36] State.reset) := by decide

/-! ### The hypotheses of the statements are met -/

/-- The hypotheses most statements share, at degrees 1, 8 and 32. -/
theorem witness_ready_inv :
    (Ready g1 ∧ FieldsInv g1) ∧ (Ready g8 ∧ FieldsInv g8) ∧ (Ready g32 ∧ FieldsInv g32) := by decide

theorem witness_DecodeEncodeAgree : decode 0x600000001#36 = .ok (.crcin true) := rfl

theorem witness_DecodeCaseTable :
    Running g8 ∧ (decode 0xF00000000#36).toOption = none ∧ (decode 0x600000002#36).toOption = none ∧
      (decode 0xC00000000#36).toOption = some .rddegr := by decide

theorem witness_IllegalWordsExactly :
    Running State.reset ∧ legalWord 0x0FFFFFFFF#36 = false ∧ legalWord 0xD00000000#36 = false ∧
      legalWord 0x300000001#36 = false ∧ legalWord 0xC80000000#36 = false ∧ legalWord 0x600000002#36 = false := by decide

theorem witness_TableRowsDecode :
    TableRow.mk "CRCIN" 0xFFFFFFFFE#36 0x600000000#36 ∈ opcodeTable ∧
      (TableRow.mk "CRCIN" 0xFFFFFFFFE#36 0x600000000#36).covers 0x600000001#36 = true ∧
      (decode 0x600000001#36).toOption = some (.crcin true) := by decide

theorem witness_StepRunsDecoded :
    (offered [.command 0x300000000#36, .reset] g8).host = .command 0x300000000#36 :: [.reset] ∧
      Running (offered [.command 0x300000000#36, .reset] g8) ∧ decode 0x300000000#36 = .ok .step := ⟨rfl, rfl, rfl⟩

theorem witness_StepOtherwise :
    g8.host = [] ∧
    ((offered [.command 0#36] g8).host = .command 0#36 :: [] ∧ Running (offered [.command 0#36] g8) ∧
      (decode 0#36).toOption = none) ∧
    ((offered [.command 0#36] faulted).host = .command 0#36 :: [] ∧ (offered [.command 0#36] faulted).fault ≠ 0#3) ∧
    (offered [.reset] faulted).host = .reset :: [] := by decide

theorem witness_StreamIsFold :
    (offered (presented [.setpoly 0x8E#32, .step] [.reset]) State.reset).host =
        presented [.setpoly 0x8E#32, .step] [.reset] ∧
      runAll [.setpoly 0x8E#32, .step] { State.reset with host := [.reset] } =
        some ([0#32, 1#32], { g8 with state := 0xF1#32, rsp := some 1#32, host := [.reset] }) := by decide

theorem witness_StepKeepsInvariant :
    (FieldsInv State.reset ∧ FaultCodeKnown State.reset ∧
      step (offered [.command 0x10000008E#36] State.reset) = .next { g8 with rsp := some 0#32 }) ∧
    FieldsInv (offered [.command 0x10000008E#36] State.reset) ∧ FieldsInv faulted ∧ FaultCodeKnown faulted :=
  ⟨⟨by decide, by decide, rfl⟩, by decide, by decide, by decide⟩

theorem witness_ResetEvent :
    (PortsIn.mk true true 0x300000000#36).rst = true ∧ (offered [.reset] g8).host = .reset :: [] := by decide

theorem witness_SetpolyCommand : Running State.reset ∧ Running g32 ∧ 1#32 ≠ 0#32 ∧ 0xFFFFFFFF#32 ≠ 0#32 := by decide

theorem witness_EveryNonzeroPolynomialAccepted :
    Running g8 ∧ 1#32 ≠ 0#32 ∧ 2#32 ≠ 0#32 ∧ 0x7FFFFFFF#32 ≠ 0#32 ∧ 0x80000000#32 ≠ 0#32 := by decide

theorem witness_MaskThreeWays : Running State.reset ∧ 1#32 ≠ 0#32 ∧ 0x80000000#32 ≠ 0#32 := by decide

theorem witness_ReconfigurationReplacesAll : Running g8 ∧ Running g32 ∧ g8.host = g32.host ∧ 0x41#32 ≠ 0#32 := by decide

theorem witness_SetstateCommand :
    (Ready g8 ∧ 0x1FF#32 &&& g8.mask ≠ 0#32) ∧ (Ready g8 ∧ 0x100#32 &&& g8.mask = 0#32) ∧
    (Running State.reset ∧ State.reset.poly = 0#32) ∧ (FieldsInv State.reset ∧ State.reset.poly = 0#32) ∧
    (Ready g32 ∧ FieldsInv g32 ∧ g32.degree = 32#6) ∧ (Ready g8 ∧ g8.mask = 0xFF#32) := by decide

theorem witness_HighBitFormula :
    exec (.setpoly 0xFFFFFFFF#32) g8 = .next { g32 with poly := 0xFFFFFFFF#32, rsp := some 0#32 } ∧
      ({ g32 with poly := 0xFFFFFFFF#32, rsp := some 0#32 } : State).fault = 0#3 := ⟨rfl, rfl⟩

theorem witness_StepCommand :
    (Ready g8 ∧ g8.state.getLsbD 0 = true) ∧
    (Ready (holding 0xF6#32 g8) ∧ (holding 0xF6#32 g8).state.getLsbD 0 = false) ∧
    (Running State.reset ∧ State.reset.poly = 0#32) ∧ (Running g8 ∧ g8.poly = 0x8E#32 ∧ g8.state = 0xFF#32) := by decide

theorem witness_StepBitByBit : Ready g32 ∧ FieldsInv g32 ∧ Ready g1 ∧ FieldsInv g1 := by decide

theorem witness_StepCornerCases :
    (Ready (holding 0#32 g8) ∧ (holding 0#32 g8).state = 0#32) ∧
    (Ready (holding 1#32 g8) ∧ (holding 1#32 g8).state = 1#32) ∧
    (Ready (holding 0x8E#32 g8) ∧ (holding 0x8E#32 g8).state = g8.poly ∧ g8.poly.getLsbD 0 = false) ∧
    (Running g1 ∧ g1.poly = 1#32 ∧ g1.state = 1#32) ∧
    (Ready g32 ∧ FieldsInv g32 ∧ g32.degree = 32#6 ∧ g32.poly = 0x80000057#32 ∧ g32.state = 0xFFFFFFFF#32 ∧
      nextOf (exec .step g32) = some { g32 with state := 0xFFFFFFA8#32, rsp := some 1#32 }) ∧
    Running { g32 with poly := 0x80000000#32 } := by decide

theorem witness_StepDividesByX : Ready g8 ∧ Ready g32 := by decide

theorem witness_UpdatesAreLinear : Ready g8 ∧ FieldsInv g8 := by decide

theorem witness_StepIsBijection : Ready g8 ∧ FieldsInv g8 ∧ 0x80#32 &&& g8.mask = 0x80#32 := by decide

theorem witness_CataloguePeriods : Running State.reset := by decide

theorem witness_SyncfCommand :
    (Ready g8 ∧ FieldsInv g8) ∧ (Ready g32 ∧ FieldsInv g32) ∧ Ready { g8 with degree := 63#6 } ∧
      (Running State.reset ∧ State.reset.poly = 0#32) ∧
      (Running g8 ∧ g8.poly = 0x8E#32 ∧ g8.degree = 8#6 ∧ g8.state = 0xFF#32) := by decide

theorem witness_SyncfClosedForm : Ready g32 ∧ FieldsInv g32 := by decide

theorem witness_SyncfIsBijection : Ready g8 ∧ FieldsInv g8 ∧ 0xFF#32 &&& g8.mask = 0xFF#32 := by decide

theorem witness_SyncfCornerCases :
    Ready g8 ∧ FieldsInv g8 ∧ 0x55#32 &&& g8.mask = 0x55#32 ∧ 0xFFFFFFA5#32 &&& g8.mask = 0xA5#32 &&& g8.mask ∧
      0x101#32 &&& g8.mask = 1#32 ∧ 0x180#32 &&& g8.mask = g8.highBit ∧ 3#32 &&& g1.mask = 1#32 ∧
      3#32 &&& g1.mask = g1.highBit := by decide

theorem witness_SyncfTracksGenerator :
    Ready (holding 0x49#32 g8) ∧ FieldsInv (holding 0x49#32 g8) ∧ Ready g8 ∧ FieldsInv g8 ∧
      g8.poly = (holding 0x49#32 g8).poly ∧
      (runAll (List.replicate 8 .step) (holding 0x49#32 g8)).map Prod.fst = some (bitResponses 0xA5#32 8) := by decide

theorem witness_SyncbCommand :
    (Ready g8 ∧ FieldsInv g8) ∧ Ready { g8 with highBit := 0x30#32 } ∧
      (Running State.reset ∧ State.reset.poly = 0#32) ∧
      (Running g8 ∧ g8.poly = 0x8E#32 ∧ g8.mask = 0xFF#32 ∧ g8.highBit = 0x80#32) := by decide

theorem witness_SyncbReproducesOperand : Ready g1 ∧ FieldsInv g1 ∧ Ready g32 ∧ FieldsInv g32 := by decide

theorem witness_SyncbClosedForm : Ready g8 ∧ FieldsInv g8 ∧ 7 < g8.degree.toNat ∧ g8.degree.toNat ≤ 8 := by decide

theorem witness_SyncbIsBijection :
    Ready g8 ∧ FieldsInv g8 ∧ 0x49#32 &&& g8.mask = 0x49#32 ∧
      nextOf (exec (.syncb 0xA5#32) g8) = some { g8 with state := 0x49#32, rsp := some 0#32 } := by decide

theorem witness_SyncDuality : Ready g32 ∧ FieldsInv g32 := by decide

theorem witness_CrcinCommand :
    (Ready g8 ∧ (g8.state.getLsbD 0 ^^ false) = true) ∧ (Ready g8 ∧ (g8.state.getLsbD 0 ^^ true) = false) ∧
    (Running State.reset ∧ State.reset.poly = 0#32) ∧ (Running g8 ∧ g8.poly = 0x8E#32 ∧ g8.state = 0xFF#32) ∧
    (Running (holding 0x7F#32 g8) ∧ (holding 0x7F#32 g8).state = 0x7F#32) := by decide

theorem witness_CrcinCompared : Ready g8 := by decide

theorem witness_CrcFeedLaw : Ready g8 := by decide

theorem witness_CrcoutCommand :
    Ready g8 ∧ (Running State.reset ∧ State.reset.poly = 0#32) ∧
      (Ready (holding 0x88#32 g8) ∧ (holding 0x88#32 g8).state = 0x88#32) ∧
      (Ready (holding 0x11#32 g8) ∧ (holding 0x11#32 g8).state = 0x11#32) := by decide

theorem witness_CrcoutOnlyShrinks :
    Ready (holding 0#32 g8) ∧ (holding 0#32 g8).state = 0#32 ∧ Ready (holding 1#32 g8) ∧
      (holding 1#32 g8).state = 1#32 ∧ Ready g32 ∧ g32.state ≠ 0#32 := by decide

theorem witness_DrainReadsRemainder : Ready g8 ∧ FieldsInv g8 := by decide

theorem witness_RefeedCancels :
    (Ready (holding 0x88#32 g8) ∧ FieldsInv (holding 0x88#32 g8)) ∧
      (Running g8 ∧ g8.poly = 0x8E#32 ∧ g8.state = 0xFF#32) := by decide

theorem witness_AccessorsAnswerFields : Running State.reset ∧ Running g8 := by decide

theorem witness_AccessorValues :
    (Running State.reset ∧ FieldsInv State.reset ∧ State.reset.poly = 0#32) ∧
    (Running g32 ∧ FieldsInv g32 ∧ g32.poly ≠ 0#32) ∧
    (∀ i ∈ [Instr.step, Instr.crcout], ∀ q, i ≠ .setpoly q) ∧
    runAll [.setpoly 0x8E#32, .step, .crcout] State.reset =
      some ([0#32, 1#32, 1#32], { g8 with state := 0x78#32, rsp := some 1#32 }) :=
  ⟨by decide, by decide, by simp, by decide⟩

theorem witness_AccessorsCommon :
    (Running State.reset ∧ 8 ≤ (8#4).toNat ∧ (8#4).toNat ≤ 12 ∧ 8 ≤ (12#4).toNat ∧ (12#4).toNat ≤ 12) ∧
    faulted.fault ≠ 0#3 ∧
    (∀ i ∈ [Instr.rdstate, Instr.rddegr], i = .rdstate ∨ i = .rdpoly ∨ i = .rdmask ∨ i = .rdhbit ∨ i = .rddegr) := by
  decide

theorem witness_FaultCauses : Running State.reset ∧ Running g8 := by decide

theorem witness_FaultEntry :
    acceptWord 0x200000100#36 g8 = .next { g8 with fault := 3#3, rsp := none } ∧
      ({ g8 with fault := 3#3, rsp := none } : State).fault ≠ 0#3 := ⟨rfl, by decide⟩

theorem witness_FaultedIsAbsorbing :
    faulted.fault ≠ 0#3 ∧
    (∀ k, k < 1 → (offered [.command 0x800000000#36, .reset] faulted).host[k]? ≠ some .reset) ∧
    (offered [.reset] faulted).host = .reset :: [] := by decide

theorem witness_FaultPriority :
    (Running State.reset ∧ (decode 0x300000001#36).toOption = none ∧ State.reset.poly = 0#32) ∧
    (Running g8 ∧ g8.poly ≠ 0#32 ∧ 0x100#32 &&& g8.mask = 0#32) := by decide

theorem witness_EveryLegalCommandCompletes :
    Running State.reset ∧ (0x41#32 ≠ 0#32) ∧ Running g8 ∧ g8.poly ≠ 0#32 ∧ 1#32 &&& g8.mask ≠ 0#32 := by decide

theorem witness_LogicalStateChanges :
    Running State.reset ∧ State.reset.poly = 0#32 ∧ Running g8 ∧ g8.poly ≠ 0#32 := by decide

theorem witness_CommandFrame :
    exec .rdmask g8 = .next { g8 with rsp := some 0xFF#32 } ∧
      exec .crcout State.reset = .next { State.reset with fault := 2#3 } ∧
      ∀ p, Instr.rdmask ≠ .setpoly p := ⟨rfl, rfl, by simp⟩

theorem witness_DerivedFieldsFollowPoly :
    (FieldsInv (offered [.command 0x10000008E#36] State.reset) ∧
      step (offered [.command 0x10000008E#36] State.reset) = .next { g8 with rsp := some 0#32 } ∧ g8.poly ≠ 0#32) ∧
    (FieldsInv (offered [.reset] g8) ∧ step (offered [.reset] g8) = .next State.reset ∧ State.reset.poly = 0#32) ∧
    (FieldsInv (offered [.command 0x300000000#36] g8) ∧
      step (offered [.command 0x300000000#36] g8) = .next { g8 with state := 0xF1#32, rsp := some 1#32 } ∧
      g8.poly = (offered [.command 0x300000000#36] g8).poly ∧
      (∀ rest, (offered [.command 0x300000000#36] g8).host ≠ .reset :: rest) ∧
      ∀ w rest p, (offered [.command 0x300000000#36] g8).host = .command w :: rest → decode w ≠ .ok (.setpoly p)) := by
  refine ⟨⟨by decide, rfl, by decide⟩, ⟨by decide, rfl, rfl⟩, by decide, rfl, rfl, fun _ h => ?_, fun _ _ _ h => ?_⟩
  · cases h
  · cases h; exact fun h => nomatch h

theorem witness_NonzeroStateWhereKept :
    Ready g8 ∧ FieldsInv g8 ∧ 0x41#32 ≠ 0#32 ∧ 0x1FF#32 &&& g8.mask ≠ 0#32 := by decide

theorem witness_ZeroStateHazard :
    Ready (holding 0#32 g8) ∧ FieldsInv (holding 0#32 g8) ∧ (holding 0#32 g8).state = 0#32 ∧
      (∀ i ∈ [Instr.step, .crcout, .crcin false], i = .step ∨ i = .crcout ∨ i = .crcin false) ∧
      0x41#32 ≠ 0#32 ∧ 1#32 &&& g8.mask ≠ 0#32 := by decide

theorem witness_TwiceEqualsOnce :
    Ready g8 ∧ FieldsInv g8 ∧ exec (.syncf 0xA5#32) g8 = .next { g8 with state := 0xA8#32, rsp := some 0#32 } ∧
      Instr.syncf 0xA5#32 ≠ .step ∧ Instr.syncf 0xA5#32 ≠ .crcout ∧ ∀ b, Instr.syncf 0xA5#32 ≠ .crcin b :=
  ⟨by decide, by decide, rfl, by decide, by decide, by decide⟩

theorem witness_ResponseValues :
    exec .step g8 = .next { g8 with state := 0xF1#32, rsp := some 1#32 } ∧
      exec .step State.reset = .next { State.reset with fault := 2#3 } := ⟨rfl, rfl⟩

theorem witness_PortHandshake :
    acceptsAt ⟨false, true, 0x300000000#36⟩ ⟨g8, none⟩ = true ∧
    ((Clocked.mk g8 (some ⟨0x300000000#36, 0⟩)).busy = some ⟨0x300000000#36, 0⟩ ∧ Running g8) ∧
    (∀ w, (Clocked.mk g8 (some ⟨0x300000000#36, 1⟩)).busy ≠ some ⟨w, 0⟩) ∧
    (faulted.fault ≠ 0#3 ∧ ∀ i ∈ [PortsIn.mk false true 0x300000000#36], i.rst = false) :=
  ⟨by decide, by decide, by simp, by decide⟩

theorem witness_PortsRealiseExec :
    acceptsAt ⟨false, true, 0x300000000#36⟩ ⟨g8, none⟩ = true ∧
      ∃ js : List PortsIn, (∀ j ∈ js, j.rst = false) ∧
        js.length = Config.lat (wordOp 0x300000000#36) g8.degree :=
  ⟨by decide, List.replicate (Config.lat (wordOp 0x300000000#36) g8.degree) ⟨false, false, 0#36⟩, by simp, by simp⟩

/-- R252: a command presented before the first reset, or at its edge, breaks the host's obligation. -/
theorem test_obeysPowerUp_refuses :
    obeysPowerUp [⟨false, true, 0x300000000#36⟩, ⟨true, false, 0#36⟩] = false ∧
      obeysPowerUp [⟨true, true, 0x300000000#36⟩] = false ∧
      resetComesFirst [.command 0x300000000#36, .reset] = false := by decide

theorem witness_PowerUpThenReset :
    (∀ i ∈ [PortsIn.mk false false 0#36], i.rst = false ∧ i.cmdValid = false) ∧
    ((PortsIn.mk true false 0#36).rst = true ∧ (PortsIn.mk true false 0#36).cmdValid = false) ∧
    ((PortsIn.mk false true 0x300000000#36).rst = false ∧ (PortsIn.mk false true 0x300000000#36).cmdValid = true) ∧
    (obeysPowerUp [⟨true, false, 0#36⟩, ⟨false, true, 0x300000000#36⟩] = true ∧
      ([⟨true, false, 0#36⟩, ⟨false, true, 0x300000000#36⟩] : List PortsIn)[1]? =
        some ⟨false, true, 0x300000000#36⟩ ∧
      poweredAccepts ⟨false, true, 0x300000000#36⟩
        (poweredEdges (([⟨true, false, 0#36⟩, ⟨false, true, 0x300000000#36⟩] : List PortsIn).take 1) (.unreset 0)) = true) ∧
    (resetComesFirst [.reset, .command 0x300000000#36] = true ∧ [HostAction.reset, .command 0x300000000#36] ≠ []) :=
  ⟨by decide, by decide, by decide, ⟨by decide, rfl, rfl⟩, by decide⟩

end Sys2Proof.Tests
end

section
/-! What one edge does to the clocked block of Machine/Ports.lean, one equation per case of the handshake (R71); what a
list of edges does to a command in progress; and from these, that the ports realise `exec` (R6). -/

namespace Sys2Proof.Machine

/-! ### One edge -/

/-- The handshake of R71 as conditions on the inputs and the block. -/
theorem acceptsAt_iff (i : PortsIn) (c : Clocked) :
    acceptsAt i c = true ↔ i.rst = false ∧ i.cmdValid = true ∧ c.block.fault = 0#3 ∧ c.busy = none := by
  simp only [acceptsAt, cmdReady, Bool.and_eq_true, Bool.not_eq_true', Option.isNone_iff_eq_none,
    isFaulted_eq_false_iff]
  tauto

/-- `cmd_ready` is 0 as long as a command is in progress (R71). -/
@[simp] theorem cmdReady_busy (rst : Bool) (s : State) (p : InProgress) : cmdReady rst ⟨s, some p⟩ = false := by
  simp [cmdReady]

/-- An edge without reset runs the block. -/
theorem edge_of_not_rst {i : PortsIn} (h : i.rst = false) (c : Clocked) : edge i c = runEdge i c := by
  simp [edge, h]

/-- The accepting edge looks the latency up, and writes no field. -/
theorem edge_of_acceptsAt {i : PortsIn} {c : Clocked} (h : acceptsAt i c = true) :
    edge i c = ⟨endPulse c.block, some ⟨i.cmd, Config.lat (wordOp i.cmd) c.block.degree - 1⟩⟩ := by
  obtain ⟨hrst, -, -, hbusy⟩ := (acceptsAt_iff i c).1 h
  rw [edge_of_not_rst hrst]
  simp only [runEdge, hbusy, h, if_true]

/-- An edge before the completing one only brings that one nearer. -/
theorem edge_of_waiting {i : PortsIn} (h : i.rst = false) (s : State) (w : CommandWord) (n : Nat) :
    edge i ⟨s, some ⟨w, n + 1⟩⟩ = ⟨endPulse s, some ⟨w, n⟩⟩ := by
  rw [edge_of_not_rst h, runEdge]

/-- The completing edge leaves the block as executing the word does (R71). -/
theorem edge_of_completing {i : PortsIn} (h : i.rst = false) {s t : State} {w : CommandWord}
    (ht : acceptWord w s = .next t) : edge i ⟨s, some ⟨w, 0⟩⟩ = ⟨t, none⟩ := by
  simp only [edge_of_not_rst h, runEdge, completeWord, ht, nextOf]

/-! ### The edges while a command is in progress -/

@[simp] theorem edges_nil (c : Clocked) : edges [] c = c := rfl

@[simp] theorem edges_cons (i : PortsIn) (is : List PortsIn) (c : Clocked) :
    edges (i :: is) c = edges is (edge i c) := rfl

/-- Up to the completing edge the block keeps its fields and the word, whatever the host drives without reset. -/
theorem edges_of_waiting (s : State) (w : CommandWord) {js : List PortsIn} {n : Nat}
    (hrst : ∀ j ∈ js, j.rst = false) (hn : js.length ≤ n) :
    edges js ⟨endPulse s, some ⟨w, n⟩⟩ = ⟨endPulse s, some ⟨w, n - js.length⟩⟩ := by
  induction js generalizing n with
  | nil => rfl
  | cons j js ih =>
    obtain ⟨hj, hjs⟩ := List.forall_mem_cons.1 hrst
    obtain ⟨m, rfl⟩ : ∃ m, n = m + 1 := Nat.exists_eq_add_one.2 (by simp at hn; omega)
    rw [edges_cons, edge_of_waiting hj, endPulse_endPulse, ih hjs (by simpa using hn), List.length_cons,
      Nat.add_sub_add_right]

/-- With one edge more than those left to wait, the word is executed on the fields it was accepted with. -/
theorem edges_of_completing {s t : State} {w : CommandWord} (ht : acceptWord w s = .next t) {js : List PortsIn}
    {n : Nat} (hrst : ∀ j ∈ js, j.rst = false) (hn : js.length = n + 1) :
    edges js ⟨endPulse s, some ⟨w, n⟩⟩ = ⟨t, none⟩ := by
  induction js generalizing n with
  | nil => simp at hn
  | cons j js ih =>
    obtain ⟨hj, hjs⟩ := List.forall_mem_cons.1 hrst
    have hlen : js.length = n := by simpa using hn
    cases n with
    | zero =>
      rw [List.length_eq_zero_iff.1 hlen, edges_cons, edges_nil]
      exact edge_of_completing hj ((acceptWord_endPulse w s).trans ht)
    | succ m => rw [edges_cons, edge_of_waiting hj, endPulse_endPulse, ih hjs hlen]

end Sys2Proof.Machine

open Sys2Proof Sys2Proof.Machine

/-- Settles O59: after the accepting edge the command waits with the fields unchanged, by induction on the edges, and
the last of its `LAT` edges completes it. -/
theorem portsRealiseExec : Obligations.PortsRealiseExec := by
  intro i js c hacc hrst hlen
  obtain ⟨-, -, hrun, -⟩ := (acceptsAt_iff i c).1 hacc
  have hlat : 0 < Config.lat (wordOp i.cmd) c.block.degree := Nat.succ_pos _
  refine ⟨?_, fun k hk => ?_⟩
  · obtain ⟨t, ht⟩ := acceptWord_of_running hrun i.cmd
    refine ⟨t, ht, ?_⟩
    rw [edges_cons, edge_of_acceptsAt hacc]
    exact edges_of_completing ht hrst (by omega)
  · have hwait := edges_of_waiting c.block i.cmd (js := js.take k)
      (n := Config.lat (wordOp i.cmd) c.block.degree - 1)
      (fun j hj => hrst j (List.mem_of_mem_take hj)) (by rw [List.length_take]; omega)
    rw [edges_cons, edge_of_acceptsAt hacc, hwait]
    exact ⟨⟨rfl, rfl, rfl, rfl, rfl, rfl⟩, rfl, cmdReady_busy _ _ _⟩
end

section
/-! What a command and a step do to the configuration fields `poly`, `mask`, `degree` and `highBit`, said once; and from
this the frame of every command (R20), that the derived fields follow `poly` (R34), and the reset values (R35). -/

namespace Sys2Proof.Machine

/-! ### The configuration fields -/

/-- The four fields of R20 that only SETPOLY and reset write agree. -/
def SameConfiguration (s t : State) : Prop :=
  t.poly = s.poly ∧ t.mask = s.mask ∧ t.degree = s.degree ∧ t.highBit = s.highBit

/-- `mask`, `degree` and `highBit` are the function of `poly` that R34 gives. -/
def DerivedFields (s : State) : Prop :=
  (s.poly = 0#32 → s.mask = 0#32 ∧ s.degree = 0#6 ∧ s.highBit = 0#32) ∧
    (s.poly ≠ 0#32 → s.degree.toNat = bitlen s.poly ∧ s.mask = ones s.degree.toNat ∧
      s.highBit = 1#32 <<< (s.degree.toNat - 1))

theorem SameConfiguration.refl (s : State) : SameConfiguration s s := ⟨rfl, rfl, rfl, rfl⟩

theorem SameConfiguration.derivedFields {s t : State} (h : SameConfiguration s t) (hs : DerivedFields s) :
    DerivedFields t := by
  obtain ⟨hpoly, hmask, hdegree, hhigh⟩ := h
  simpa only [DerivedFields, hpoly, hmask, hdegree, hhigh] using hs

/-- R32 contains R34. -/
theorem derivedFields_of_inv {s : State} (h : FieldsInv s) : DerivedFields s := by
  obtain ⟨hp, hmask, hdegree, hhigh, -⟩ | ⟨hp, hdegree, hmask, hhigh, -⟩ := h
  · exact ⟨fun _ => ⟨hmask, hdegree, hhigh⟩, fun hp' => absurd hp hp'⟩
  · exact ⟨fun hp' => absurd hp' hp, fun _ => ⟨hdegree, hmask, hhigh⟩⟩

/-- R34 leaves no choice: blocks with the same `poly` have the same derived fields. -/
theorem DerivedFields.eq_of_poly_eq {s t : State} (hs : DerivedFields s) (ht : DerivedFields t)
    (hpoly : t.poly = s.poly) : t.mask = s.mask ∧ t.degree = s.degree ∧ t.highBit = s.highBit := by
  by_cases hp : s.poly = 0#32
  · obtain ⟨hsm, hsd, hsh⟩ := hs.1 hp
    obtain ⟨htm, htd, hth⟩ := ht.1 (hpoly.trans hp)
    exact ⟨htm.trans hsm.symm, htd.trans hsd.symm, hth.trans hsh.symm⟩
  · obtain ⟨hsd, hsm, hsh⟩ := hs.2 hp
    obtain ⟨htd, htm, hth⟩ := ht.2 (hpoly ▸ hp)
    have hd : t.degree = s.degree := BitVec.eq_of_toNat_eq (by rw [htd, hsd, hpoly])
    exact ⟨by rw [htm, hsm, hd], hd, by rw [hth, hsh, hd]⟩

/-! ### What writes them -/

theorem Completion.fault_eq {s u : State} (h : Completion s u) : u.fault = s.fault := by cases h <;> rfl

/-- A command other than SETPOLY that has a next state enters a fault, or writes at most the data register and the
response. -/
theorem exec_next_of_not_setpoly {i : Instr} {s t : State} (h : exec i s = .next t) (hi : ∀ p, i ≠ .setpoly p) :
    (∃ c, t = latchFault c s) ∨ ∃ r v, t = answer r (loadState v s) := by
  have read : ∀ {r : Word}, whenRunning s (respond r s) = .next t →
      (∃ c, t = latchFault c s) ∨ ∃ r v, t = answer r (loadState v s) := fun h =>
    .inr ⟨_, s.state, respond_next (whenRunning_next h).2⟩
  have write : ∀ {r v : Word}, whenRunning s (whenConfigured s (respond r (loadState v s))) = .next t →
      (∃ c, t = latchFault c s) ∨ ∃ r v, t = answer r (loadState v s) := fun h =>
    (whenConfigured_next (whenRunning_next h).2).elim (fun hk => .inr ⟨_, _, respond_next hk.2⟩)
      fun hk => .inl ⟨_, hk.2⟩
  cases i with
  | setpoly p => exact absurd rfl (hi p)
  | setstate v =>
    obtain ⟨-, hk⟩ | ⟨-, rfl⟩ := whenConfigured_next (whenRunning_next h).2
    · split at hk
      · exact .inl ⟨_, raiseFault_next hk⟩
      · exact .inr ⟨_, _, respond_next hk⟩
    · exact .inl ⟨_, rfl⟩
  | step => exact write h
  | syncf x => exact write h
  | syncb x => exact write h
  | crcin b => exact write h
  | crcout => exact write h
  | rdstate => exact read h
  | rdpoly => exact read h
  | rdmask => exact read h
  | rdhbit => exact read h
  | rddegr => exact read h

/-- No command but SETPOLY writes the configuration fields. -/
theorem exec_sameConfiguration {i : Instr} {s t : State} (h : exec i s = .next t) (hi : ∀ p, i ≠ .setpoly p) :
    SameConfiguration s t := by
  obtain ⟨c, rfl⟩ | ⟨r, v, rfl⟩ := exec_next_of_not_setpoly h hi <;> exact .refl s

/-- SETPOLY replaces the configuration, or faults and keeps it. -/
theorem exec_setpoly_next {p : Word} {s t : State} (h : exec (.setpoly p) s = .next t) :
    (p ≠ 0#32 ∧ t = answer voidResponse (loadPoly p s)) ∨ (p = 0#32 ∧ t = latchFault .invalidPolynomial s) := by
  have hk := (whenRunning_next h).2
  split at hk
  · exact .inr ⟨‹_›, raiseFault_next hk⟩
  · exact .inl ⟨‹_›, respond_next hk⟩

/-- An accessor writes no field of R20. -/
theorem exec_accessor_sameFields {i : Instr} {s t : State}
    (hi : i = .rdstate ∨ i = .rdpoly ∨ i = .rdmask ∨ i = .rdhbit ∨ i = .rddegr) (h : exec i s = .next t) :
    SameFields s t := by
  have read : ∀ {r : Word}, whenRunning s (respond r s) = .next t → SameFields s t := fun h => by
    rw [respond_next (whenRunning_next h).2]
    exact ⟨rfl, rfl, rfl, rfl, rfl, rfl⟩
  obtain rfl | rfl | rfl | rfl | rfl := hi <;> exact read h

/-- A step keeps the configuration fields, or the host resets the block, or a SETPOLY replaces them. -/
theorem step_configuration_cases {s t : State} (h : step s = .next t) :
    SameConfiguration s t ∨
      (∃ rest, s.host = .reset :: rest ∧ SameConfiguration State.reset t) ∨
      ∃ w rest p, s.host = .command w :: rest ∧ decode w = .ok (.setpoly p) ∧ p ≠ 0#32 ∧
        SameConfiguration (loadPoly p s) t := by
  obtain ⟨-, rfl⟩ | ⟨rest, hh, rfl⟩ | ⟨w, rest, -, -, rfl⟩ | ⟨w, rest, hh, -, ht⟩ := step_next_cases h
  · exact .inl (.refl s)
  · exact .inr (.inl ⟨rest, hh, .refl _⟩)
  · exact .inl (.refl s)
  · obtain ⟨i, hi, ht⟩ | ⟨e, -, -, rfl⟩ := acceptWord_next_cases ht
    · by_cases hset : ∃ p, i = .setpoly p
      · obtain ⟨p, rfl⟩ := hset
        obtain ⟨hp, rfl⟩ | ⟨-, rfl⟩ := exec_setpoly_next ht
        · exact .inr (.inr ⟨w, rest, p, hh, hi, hp, .refl _⟩)
        · exact .inl (.refl s)
      · have hst : SameConfiguration (withHost rest s) t := exec_sameConfiguration ht fun p hp => hset ⟨p, hp⟩
        exact .inl hst
    · exact .inl (.refl s)

/-- Every field is 0 after reset, the first line of R32. -/
theorem inv_reset : FieldsInv State.reset :=
  .inl ⟨reset_poly, reset_mask, reset_degree, reset_highBit, reset_state⟩

/-- Every step keeps R34. -/
theorem step_derivedFields {s t : State} (hs : DerivedFields s) (h : step s = .next t) : DerivedFields t := by
  obtain hst | ⟨-, -, hst⟩ | ⟨-, -, p, -, -, hp, hst⟩ := step_configuration_cases h
  · exact hst.derivedFields hs
  · exact hst.derivedFields (derivedFields_of_inv inv_reset)
  · exact hst.derivedFields (derivedFields_of_inv (.inr (inv_loadPoly hp s)))

end Sys2Proof.Machine

open Sys2Proof Sys2Proof.Machine

/-- Settles O9. -/
theorem resetFieldsZero : Obligations.ResetFieldsZero :=
  ⟨reset_state, reset_poly, reset_mask, reset_degree, reset_highBit, reset_fault, by decide⟩

/-- Settles O10. -/
theorem invariantAtReset : Obligations.InvariantAtReset := ⟨inv_reset, by simp⟩

/-- Settles O52: a command that has a next state either latched a fault or completed, and each writes only what R20
lists for it. -/
theorem commandFrame : Obligations.CommandFrame := by
  intro i s t h
  refine ⟨exec_host h, exec_sameConfiguration h, fun hi => exec_accessor_sameFields hi h, ?_⟩
  obtain ⟨hf, ⟨c, rfl⟩ | ⟨v, u, hu, rfl⟩⟩ := exec_next_cases h
  · exact ⟨fun _ => ⟨rfl, rfl, rfl, rfl, rfl, rfl⟩, fun ht => absurd ht (causeCode_ne_zero c)⟩
  · exact ⟨fun ht => absurd (hu.fault_eq.trans hf) ht, fun _ => ⟨hf, rfl⟩⟩

/-- Settles O53: only a reset or a SETPOLY writes the configuration fields, and each leaves them as R34 says. -/
theorem derivedFieldsFollowPoly : Obligations.DerivedFieldsFollowPoly := by
  refine ⟨fun s t hs h => step_derivedFields (derivedFields_of_inv hs) h, fun s t hs h hpoly => ?_,
    fun s t h hreset hset => ?_⟩
  · have hs := derivedFields_of_inv hs
    exact hs.eq_of_poly_eq (step_derivedFields hs h) hpoly
  · obtain hst | ⟨rest, hh, -⟩ | ⟨w, rest, p, hh, hw, -⟩ := step_configuration_cases h
    · exact hst
    · exact absurd hh (hreset rest)
    · exact absurd hw (hset w rest p hh)
end

section
/-! Where the register becomes 0 (R33): the shift engine and the loops of SYNCF and SYNCB bit by bit, and draining the
register by CRCOUT. -/

namespace Sys2Proof.Machine

theorem ones_ne_zero {n : Nat} (h : 1 ≤ n) (hn : n ≤ 32) : ones n ≠ 0#32 := by
  intro h0
  have hbit := getLsbD_ones hn 0
  rw [h0, BitVec.getLsbD_zero] at hbit
  exact absurd hbit.symm (by simp; omega)

section Invariant

variable {s : State} (h : FieldsInv s) (hp : s.poly ≠ 0#32)
include h hp

theorem mask_eq_of_inv : s.mask = ones s.degree.toNat := by
  obtain ⟨-, -, hmask, -⟩ := configured_of_inv h hp
  exact hmask

theorem highBit_eq_of_inv : s.highBit = 1#32 <<< (s.degree.toNat - 1) := by
  obtain ⟨-, -, -, hhigh, -⟩ := configured_of_inv h hp
  exact hhigh

theorem top_bit_of_inv : s.poly.getLsbD (s.degree.toNat - 1) = true := by
  obtain ⟨-, -, -, -, htop, -⟩ := configured_of_inv h hp
  exact htop

theorem degree_pos_of_inv : 1 ≤ s.degree.toNat := by
  obtain ⟨-, hdegree, -⟩ := configured_of_inv h hp
  exact hdegree ▸ bitlen_pos hp

end Invariant

/-- A word masks to 0 exactly when its bits below the degree are 0. -/
theorem and_ones_eq_zero_iff {n : Nat} (hn : n ≤ 32) (x : Word) :
    x &&& ones n = 0#32 ↔ ∀ j, j < n → x.getLsbD j = false := by
  rw [BitVec.zero_iff_eq_false]
  refine forall_congr' fun j => ?_
  rw [BitVec.getLsbD_and, getLsbD_ones hn]
  by_cases hj : j < n <;> simp [hj]

/-- SYNCF keeps the register within the degree of the polynomial (R193). -/
theorem syncfLoop_bits {poly v : Word} {d : Nat} (x : Word) (hpoly : ∀ j, d ≤ j → poly.getLsbD j = false)
    (hv : ∀ j, d ≤ j → v.getLsbD j = false) (n : Nat) :
    ∀ j, d ≤ j → (syncfLoop poly x v n).getLsbD j = false := by
  induction n with
  | zero => exact hv
  | succ n ih => exact fun j hj => shiftXor_bits hpoly ih _ hj

/-! ### The engine with a polynomial of degree `d` -/

section Engine

variable {poly : Word} {d : Nat} (hd : 1 ≤ d) (htop : poly.getLsbD (d - 1) = true)
include hd htop

/-- The top bit of the polynomial gives feedback away: the bits from `k` up are 0 after one position of the engine
exactly when there was no feedback and the bits from `k + 1` up were 0. -/
theorem shiftXor_high_bits_zero_iff {v : Word} (hv : v.getLsbD d = false) {k : Nat} (hk : k < d) (b : Bool) :
    (∀ j, k ≤ j → (shiftXor poly b v).getLsbD j = false) ↔
      b = false ∧ ∀ j, k + 1 ≤ j → v.getLsbD j = false := by
  constructor
  · intro h
    have hb : b = false := by
      have := h (d - 1) (by omega)
      rwa [getLsbD_shiftXor, Nat.sub_add_cancel hd, hv, htop, Bool.false_xor, Bool.and_true] at this
    subst hb
    refine ⟨rfl, fun j hj => ?_⟩
    have := h (j - 1) (by omega)
    rwa [getLsbD_shiftXor, Nat.sub_add_cancel (by omega), Bool.false_and, Bool.xor_false] at this
  · rintro ⟨rfl, hv⟩ j hj
    rw [getLsbD_shiftXor, hv (j + 1) (by omega), Bool.false_and, Bool.xor_false]

/-- The step map takes only 0 to 0 (R195). -/
theorem stepWord_eq_zero_iff {v : Word} (hv : v.getLsbD d = false) : stepWord poly v = 0#32 ↔ v = 0#32 := by
  have hstep := shiftXor_high_bits_zero_iff hd htop hv hd (v.getLsbD 0)
  simp only [Nat.zero_le, true_implies, Nat.zero_add] at hstep
  rw [stepWord, BitVec.zero_iff_eq_false, hstep, BitVec.zero_iff_eq_false]
  refine ⟨fun ⟨h0, hpos⟩ j => ?_, fun h => ⟨h 0, fun j _ => h j⟩⟩
  cases j with
  | zero => exact h0
  | succ j => exact hpos (j + 1) (by omega)

/-- After `n` iterations of SYNCF the bits from `d - n` up are 0 exactly when the first `n` operand bits are 0. -/
theorem syncfLoop_high_bits_zero_iff (x : Word) {v : Word} (hpoly : ∀ j, d ≤ j → poly.getLsbD j = false)
    (hv : ∀ j, d ≤ j → v.getLsbD j = false) {n : Nat} (hn : n ≤ d) :
    (∀ j, d - n ≤ j → (syncfLoop poly x v n).getLsbD j = false) ↔ ∀ j, j < n → x.getLsbD j = false := by
  induction n with
  | zero => simpa using hv
  | succ n ih =>
    have hbits := syncfLoop_bits x hpoly hv n
    rw [syncfLoop_succ, shiftXor_high_bits_zero_iff hd htop (hbits d le_rfl) (by omega),
      show d - (n + 1) + 1 = d - n by omega, ih (by omega), Nat.forall_lt_succ_right, and_comm]

end Engine

/-- SYNCF leaves 0 exactly when the operand bits below the degree are 0. -/
theorem syncfLoop_eq_zero_iff {s : State} (h : FieldsInv s) (hp : s.poly ≠ 0#32) (x : Word) :
    syncfLoop s.poly x s.state s.degree.toNat = 0#32 ↔ ∀ j, j < s.degree.toNat → x.getLsbD j = false := by
  rw [BitVec.zero_iff_eq_false]
  simpa using syncfLoop_high_bits_zero_iff (degree_pos_of_inv h hp) (top_bit_of_inv h hp) x
    (fun _ => poly_bits_of_inv h) (fun _ => state_bits_of_inv h) le_rfl

/-! ### The loop of SYNCB by its probed bits -/

/-- The loop of SYNCB over the operand bits `n - 1` down to 0 (R143). -/
def syncbBits (poly x : Word) : Nat → Word → Word
  | 0, v => v
  | n + 1, v => syncbBits poly x n ((if x.getLsbD n then v ^^^ poly else v) <<< 1)

theorem syncbBits_succ (poly x v : Word) (n : Nat) :
    syncbBits poly x (n + 1) v = syncbBits poly x n ((if x.getLsbD n then v ^^^ poly else v) <<< 1) := rfl

theorem one_shiftLeft_ne_zero {n : Nat} (hn : n < 32) : 1#32 <<< n ≠ 0#32 := by
  have : ∀ m, m < 32 → 1#32 <<< m ≠ 0#32 := by decide
  exact this n hn

/-- The probe `2^n` tests the operand bit `n`. -/
theorem syncbIter_probe (poly x v : Word) {n : Nat} (hn : n < 32) :
    syncbIter poly x (1#32 <<< n) v = (if x.getLsbD n then v ^^^ poly else v) <<< 1 := by
  have hprobe : x &&& 1#32 <<< n ≠ 0#32 ↔ x.getLsbD n = true := by
    rw [← BitVec.twoPow_eq, BitVec.and_twoPow, BitVec.twoPow_eq]
    cases x.getLsbD n <;> simp [one_shiftLeft_ne_zero hn]
  simp only [syncbIter, hprobe]

/-- One iteration of SYNCB's loop at the probe `2^n`. -/
theorem syncbLoop_probe (poly x v : Word) {n : Nat} (hn : n < 32) (k : Nat) :
    syncbLoop poly x (k + 1) (1#32 <<< n) v =
      syncbLoop poly x k ((1#32 <<< n) >>> 1) ((if x.getLsbD n then v ^^^ poly else v) <<< 1) := by
  rw [syncbLoop_succ _ _ _ _ _ (one_shiftLeft_ne_zero hn), syncbIter_probe _ _ _ hn]

/-- From the probe `2^n` on, SYNCB's loop runs over the operand bits `n` down to 0. -/
theorem syncbLoop_eq_syncbBits (poly x : Word) {n k : Nat} (hn : n < 32) (hk : n < k) (v : Word) :
    syncbLoop poly x k (1#32 <<< n) v = syncbBits poly x (n + 1) v := by
  obtain ⟨k, rfl⟩ : ∃ m, k = m + 1 := Nat.exists_eq_add_one.2 (by omega)
  rw [syncbLoop_probe _ _ _ hn, syncbBits_succ]
  induction n generalizing k v with
  | zero => exact syncbLoop_probe_zero _ _ _ _
  | succ n ih =>
    have hhalf : ∀ m, m < 31 → (1#32 <<< (m + 1)) >>> 1 = 1#32 <<< m := by decide
    obtain ⟨k, rfl⟩ : ∃ m, k = m + 1 := Nat.exists_eq_add_one.2 (by omega)
    rw [hhalf n (by omega), syncbLoop_probe _ _ _ (by omega), syncbBits_succ]
    exact ih (by omega) _ _ (by omega)

/-- The operand bits that are 0 only shift the register. -/
theorem syncbBits_of_zero_bits (poly : Word) {x : Word} {n : Nat} (hx : ∀ j, j < n → x.getLsbD j = false)
    (v : Word) : syncbBits poly x n v = v <<< n := by
  induction n generalizing v with
  | zero => exact (BitVec.shiftLeft_zero v).symm
  | succ n ih =>
    obtain ⟨hlow, hn⟩ := Nat.forall_lt_succ_right.1 hx
    rw [syncbBits_succ, hn, if_neg Bool.false_ne_true, ih hlow, ← BitVec.shiftLeft_add, Nat.add_comm]

/-- Bit `k` of what the loop leaves depends on the operand bits below `k` only: it is 0 when they are. -/
theorem getLsbD_syncbBits_of_zero_bits (poly : Word) {x : Word} {k n : Nat} (hk : k < n)
    (hx : ∀ j, j < k → x.getLsbD j = false) (v : Word) : (syncbBits poly x n v).getLsbD k = false := by
  induction n generalizing v with
  | zero => omega
  | succ n ih =>
    rw [syncbBits_succ]
    obtain hkn | rfl := Nat.lt_succ_iff_lt_or_eq.1 hk
    · exact ih hkn _
    · rw [syncbBits_of_zero_bits poly hx, ← BitVec.shiftLeft_add, BitVec.getLsbD_shiftLeft]
      simp

/-- The loop's result and the operand agree below `n` exactly when the operand is 0 there. -/
theorem syncbBits_xor_low_bits_zero_iff (poly x v : Word) (n : Nat) :
    (∀ j, j < n → (syncbBits poly x n v ^^^ x).getLsbD j = false) ↔ ∀ j, j < n → x.getLsbD j = false := by
  simp only [BitVec.getLsbD_xor]
  constructor
  · intro h j
    induction j using Nat.strong_induction_on with
    | h j ih =>
      intro hj
      have hbit := getLsbD_syncbBits_of_zero_bits poly hj (fun i hi => ih i hi (hi.trans hj)) v
      simpa [hbit] using h j hj
  · intro hx j hj
    rw [getLsbD_syncbBits_of_zero_bits poly hj (fun i hi => hx i (hi.trans hj)), hx j hj, Bool.false_xor]

/-- SYNCB leaves 0 exactly when the operand bits below the degree are 0. -/
theorem syncb_eq_zero_iff {s : State} (h : FieldsInv s) (hp : s.poly ≠ 0#32) (x : Word) :
    (syncbLoop s.poly x 32 s.highBit 0#32 ^^^ x) &&& s.mask = 0#32 ↔
      ∀ j, j < s.degree.toNat → x.getLsbD j = false := by
  have hd := degree_le_of_inv h
  have hpos := degree_pos_of_inv h hp
  rw [highBit_eq_of_inv h hp, syncbLoop_eq_syncbBits _ _ (by omega) (by omega), Nat.sub_add_cancel hpos,
    mask_eq_of_inv h hp, and_ones_eq_zero_iff hd, syncbBits_xor_low_bits_zero_iff]

/-! ### Draining the register -/

/-- `n` CRCOUT commands in a row complete without a fault and shift the register right by `n`. -/
theorem runAll_replicate_crcout (n : Nat) {s : State} (hf : s.fault = 0#3) (hp : s.poly ≠ 0#32) :
    ∃ rs u, runAll (List.replicate n .crcout) s = some (rs, u) ∧ u.state = s.state >>> n ∧ u.fault = 0#3 := by
  induction n generalizing s with
  | zero => exact ⟨[], s, rfl, rfl, hf⟩
  | succ n ih =>
    obtain ⟨rs, u, hrun, hstate, hfault⟩ :=
      ih (s := answer (bitResponse (s.state.getLsbD 0)) (loadState (s.state >>> 1) s)) hf hp
    refine ⟨bitResponse (s.state.getLsbD 0) :: rs, u, ?_, ?_, hfault⟩
    · rw [List.replicate_succ, runAll_cons (exec_crcout hf hp) rfl, hrun]
      rfl
    · rw [hstate, answer_state, loadState_state, ← BitVec.shiftRight_add, Nat.add_comm]

/-- A register within its degree `d` is 0 after `d` shifts. -/
theorem state_ushiftRight_degree {s : State} (h : FieldsInv s) : s.state >>> s.degree.toNat = 0#32 := by
  rw [BitVec.zero_iff_eq_false]
  intro j
  rw [BitVec.getLsbD_ushiftRight]
  exact state_bits_of_inv h (Nat.le_add_right _ _)

end Sys2Proof.Machine

open Sys2Proof Sys2Proof.Machine

/-- Settles O54, command by command: the top bit of the polynomial shows the feedback of STEP and SYNCF in the register,
and SYNCB's loop leaves each bit a function of the operand bits below it. -/
theorem nonzeroStateWhereKept : Obligations.NonzeroStateWhereKept := by
  intro s ⟨hf, hp⟩ h
  refine ⟨fun p hp0 => ⟨_, exec_setpoly hf hp0, ones_ne_zero (bitlen_pos hp0) (bitlen_le p)⟩,
    fun v hv => ⟨_, exec_setstate hf hp hv, hv⟩,
    ⟨_, exec_step hf hp, ?_⟩,
    fun x => ⟨_, exec_syncf hf hp x, syncfLoop_eq_zero_iff h hp x⟩,
    fun x => ⟨_, exec_syncb hf hp x, syncb_eq_zero_iff h hp x⟩,
    ⟨_, exec_crcin (s := loadState 1#32 s) hf hp true, ?_, hf⟩, ?_⟩
  · exact (stepWord_eq_zero_iff (degree_pos_of_inv h hp) (top_bit_of_inv h hp) (state_bits_of_inv h le_rfl)).not
  · -- the register's bit and the data bit are both 1: no feedback, and the only bit is shifted out
    simp
  · obtain ⟨rs, u, hrun, hstate, hfault⟩ := runAll_replicate_crcout s.degree.toNat hf hp
    exact ⟨rs, u, hrun, hstate.trans (state_ushiftRight_degree h), hfault⟩
end

section
/-! The stream of commands of R56: decoding undoes encoding, a step of a running block executes the command it was
presented, and so a presented list of commands is the fold of `exec`. -/

namespace Sys2Proof

/-- Decoding the word of a command gives the command back (R72, R73). -/
@[simp] theorem decode_encode (i : Instr) : decode (encode i) = .ok i := by
  rw [decode, wordOp_encode, wordArg_encode]
  cases i with
  | crcin b => cases b <;> rfl
  | _ => rfl

end Sys2Proof

namespace Sys2Proof.Machine

@[simp] theorem withHost_self (s : State) : withHost s.host s = s := rfl

/-- A running block executes the command that the presented word decodes to. -/
theorem step_of_decode {s : State} {w : CommandWord} {rest : List HostAction} {i : Instr}
    (hh : s.host = .command w :: rest) (hf : s.fault = 0#3) (hw : decode w = .ok i) :
    step s = exec i (withHost rest s) := by
  rw [step_of_action hh]
  exact (presentWord_of_running (s := withHost rest s) hf w).trans (acceptWord_of_decode hw _)

/-- The next state of a command under another list of host actions is the same but for that list. -/
theorem exec_withHost_next {i : Instr} {g : List HostAction} {s t : State} (h : exec i (withHost g s) = .next t)
    (g' : List HostAction) : exec i (withHost g' s) = .next (withHost g' t) := by
  rw [← nextOf_eq_some_iff, ← withHost_withHost g' g s, exec_withHost, h]
  rfl

/-- A sequence that completes starts with a command that completes. -/
theorem runAll_cons_some {i : Instr} {is : List Instr} {s u : State} {rs : List Word}
    (h : runAll (i :: is) s = some (rs, u)) :
    ∃ t v vs, exec i s = .next t ∧ t.rsp = some v ∧ runAll is t = some (vs, u) ∧ rs = v :: vs := by
  rw [runAll] at h
  split at h
  · cases h
  · rename_i t ht
    split at h
    · cases h
    · rename_i v hv
      obtain ⟨⟨vs, u'⟩, hrun, heq⟩ := Option.map_eq_some_iff.1 h
      cases heq
      exact ⟨t, v, vs, nextOf_eq_some_iff.1 ht, hv, hrun, rfl⟩

/-- A step takes a presented command off the list and does what the command does with the list away. -/
theorem step_of_presented {i : Instr} {is : List Instr} {rest : List HostAction} {s t : State}
    (hh : s.host = presented (i :: is) rest) (ht : exec i (withHost rest s) = .next t) :
    step s = .next (withHost (presented is rest) t) := by
  obtain ⟨hf, -⟩ := exec_next_cases ht
  exact (step_of_decode hh hf (decode_encode i)).trans (exec_withHost_next ht _)

end Sys2Proof.Machine

open Sys2Proof Sys2Proof.Machine

/-- Settles O6. -/
theorem stepRunsDecoded : Obligations.StepRunsDecoded := fun _ _ _ _ => step_of_decode

/-- Settles O8, by induction on the presented commands: one step takes the first command off both the host's list and
the sequence, and leaves the block with the rest presented. -/
theorem streamIsFold : Obligations.StreamIsFold := by
  intro is rest s rs u hh hrun
  induction is generalizing s rs with
  | nil =>
    subst hh
    cases hrun
    exact ⟨rfl, rfl, fun k hk => absurd hk (Nat.not_lt_zero k)⟩
  | cons i is ih =>
    obtain ⟨t, v, vs, ht, hv, hvs, rfl⟩ := runAll_cons_some hrun
    have hstep := step_of_presented hh ht
    have hrest : withHost rest t = t := by
      obtain rfl : t.host = rest := exec_host ht
      exact withHost_self t
    obtain ⟨hfinal, hlen, hresp⟩ := ih (withHost (presented is rest) t) vs rfl
      ((congrArg (runAll is) hrest).trans hvs)
    refine ⟨(run_of_step hstep _).trans hfinal, congrArg (· + 1) hlen, fun k hk => ?_⟩
    cases k with
    | zero => exact ⟨_, run_of_step hstep 0, hv⟩
    | succ k =>
      obtain ⟨x, hx, hxr⟩ := hresp k (Nat.lt_of_succ_lt_succ hk)
      exact ⟨x, (run_of_step hstep _).trans hx, hxr⟩
end

section
/-! Which commands done twice in a row equal the command done once (R54): what SYNCF leaves does not depend on the
register it starts from. -/

namespace Sys2Proof.Machine

/-- A shift of the engine adds what the register holds to what the same shift of 0 leaves (R194). -/
theorem shiftXor_xor (poly v w : Word) (b : Bool) : shiftXor poly b (v ^^^ w) = shiftXor poly b v ^^^ w >>> 1 := by
  apply BitVec.eq_of_getLsbD_eq
  intro j _
  simp only [BitVec.getLsbD_xor, getLsbD_shiftXor, BitVec.getLsbD_ushiftRight, Nat.add_comm 1 j]
  exact Bool.xor_right_comm _ _ _

/-- `n` iterations of SYNCF shift what the register held out by `n` positions (R198). -/
theorem syncfLoop_eq_xor_ushiftRight (poly x v : Word) (n : Nat) :
    syncfLoop poly x v n = syncfLoop poly x 0#32 n ^^^ v >>> n := by
  induction n with
  | zero => simp
  | succ n ih => rw [syncfLoop_succ, ih, shiftXor_xor, ← BitVec.shiftRight_add, syncfLoop_succ]

/-- The register's old value is shifted out whole by the `degree` iterations of SYNCF (R198). -/
theorem syncfLoop_degree_eq {s : State} (h : FieldsInv s) (x : Word) :
    syncfLoop s.poly x s.state s.degree.toNat = syncfLoop s.poly x 0#32 s.degree.toNat := by
  rw [syncfLoop_eq_xor_ushiftRight, state_ushiftRight_degree h, BitVec.xor_zero]

/-- A register value within the degree keeps R32 on a Configured block. -/
theorem inv_loadState {s : State} (h : FieldsInv s) (hp : s.poly ≠ 0#32) {v : Word}
    (hv : ∀ j, s.degree.toNat ≤ j → v.getLsbD j = false) : FieldsInv (loadState v s) := by
  obtain ⟨-, hdegree, hmask, hhigh, htop, hpoly, -⟩ := configured_of_inv h hp
  have hstate : v &&& s.mask = v := hmask ▸ (and_ones_eq_iff (degree_le_of_inv h) v).2 hv
  exact .inr ⟨hp, hdegree, hmask, hhigh, htop, hpoly, hstate⟩

/-- A command that faults does not leave the block running. -/
theorem ne_latchFault_of_running {s t : State} (ht : t.fault = 0#3) (c : FaultCause) : t ≠ latchFault c s := by
  rintro rfl
  exact causeCode_ne_zero c ht

/-- A command whose only effect is its response repeats it (R54). -/
theorem exec_twice_of_answer {i : Instr} {r : Word} {s t : State} (h : exec i s = .next (answer r s))
    (ht : exec i s = .next t) : exec i t = .next t := by
  obtain rfl : answer r s = t := by simpa [h] using ht
  exact (exec_answer i r s).trans h

/-- A command that writes the register repeats this when it does the same with the written value there (R54). -/
theorem exec_twice_of_loadState {i : Instr} {r v : Word} {s t : State}
    (h : exec i s = .next (answer r (loadState v s))) (hagain : exec i (loadState v s) = exec i s)
    (ht : exec i s = .next t) : exec i t = .next t := by
  obtain rfl : answer r (loadState v s) = t := by simpa [h] using ht
  exact (exec_answer i r _).trans (hagain.trans h)

/-- SETSTATE that does not fault does not look at the register. -/
theorem exec_setstate_loadState {s : State} (hf : s.fault = 0#3) (hp : s.poly ≠ 0#32) {v : Word}
    (hv : v &&& s.mask ≠ 0#32) (w : Word) : exec (.setstate v) (loadState w s) = exec (.setstate v) s :=
  (exec_setstate (s := loadState w s) hf hp hv).trans (exec_setstate hf hp hv).symm

/-- SYNCB does not look at the register: its loop starts from 0 (R143). -/
theorem exec_syncb_loadState {s : State} (hf : s.fault = 0#3) (hp : s.poly ≠ 0#32) (x w : Word) :
    exec (.syncb x) (loadState w s) = exec (.syncb x) s :=
  (exec_syncb (s := loadState w s) hf hp x).trans (exec_syncb hf hp x).symm

/-- SYNCF does the same from every register value within the degree (R198). -/
theorem exec_syncf_loadState {s : State} (hf : s.fault = 0#3) (hp : s.poly ≠ 0#32) (h : FieldsInv s) (x : Word)
    {w : Word} (hw : ∀ j, s.degree.toNat ≤ j → w.getLsbD j = false) :
    exec (.syncf x) (loadState w s) = exec (.syncf x) s := by
  have hloop : syncfLoop s.poly x w s.degree.toNat = syncfLoop s.poly x s.state s.degree.toNat :=
    (syncfLoop_degree_eq (inv_loadState h hp hw) x).trans (syncfLoop_degree_eq h x).symm
  rw [exec_syncf hf hp, ← hloop]
  exact exec_syncf (s := loadState w s) hf hp x

end Sys2Proof.Machine

open Sys2Proof Sys2Proof.Machine

/-- Settles O56, command by command: SETPOLY and SETSTATE write what their operand says, SYNCF and SYNCB a value that
does not depend on the register, and the accessors write nothing. -/
theorem twiceEqualsOnce : Obligations.TwiceEqualsOnce := by
  intro s t i ⟨hf, hp⟩ h ht hrun hstep hcrcout hcrcin
  cases i with
  | setpoly p =>
    obtain ⟨hp0, rfl⟩ | ⟨-, hfault⟩ := exec_setpoly_next ht
    · exact exec_setpoly (s := answer voidResponse (loadPoly p s)) hf hp0
    · exact absurd hfault (ne_latchFault_of_running hrun _)
  | setstate v =>
    by_cases hv : v &&& s.mask = 0#32
    · have hfault : t = latchFault .invalidState s := by simpa [exec_setstate_zero hf hp hv] using ht.symm
      exact absurd hfault (ne_latchFault_of_running hrun _)
    · exact exec_twice_of_loadState (exec_setstate hf hp hv) (exec_setstate_loadState hf hp hv _) ht
  | syncf x =>
    have hbits := syncfLoop_bits x (fun _ => poly_bits_of_inv h) (fun _ => state_bits_of_inv h) s.degree.toNat
    exact exec_twice_of_loadState (exec_syncf hf hp x) (exec_syncf_loadState hf hp h x hbits) ht
  | syncb x => exact exec_twice_of_loadState (exec_syncb hf hp x) (exec_syncb_loadState hf hp x _) ht
  | step => exact absurd rfl hstep
  | crcout => exact absurd rfl hcrcout
  | crcin b => exact absurd rfl (hcrcin b)
  | rdstate => exact exec_twice_of_answer (exec_rdstate hf) ht
  | rdpoly => exact exec_twice_of_answer (exec_rdpoly hf) ht
  | rdmask => exact exec_twice_of_answer (exec_rdmask hf) ht
  | rdhbit => exact exec_twice_of_answer (exec_rdhbit hf) ht
  | rddegr => exact exec_twice_of_answer (exec_rddegr hf) ht
end

section
/-! The decoder of R73 inverted: a word decodes to a command exactly when it is the word that the command encodes to,
and it decodes to nothing exactly when it is one of those R77 lists. -/

namespace Sys2Proof

@[simp] theorem toOption_ok (i : Instr) : (Except.ok i : Except IllegalWord Instr).toOption = some i := rfl

@[simp] theorem toOption_error (e : IllegalWord) : (Except.error e : Except IllegalWord Instr).toOption = none := rfl

/-! ### Operand fields with reserved bits (R75) -/

theorem decodeNoOperand_eq_ok_iff {i j : Instr} {arg : Word} :
    decodeNoOperand i arg = .ok j ↔ i = j ∧ arg = 0#32 := by
  unfold decodeNoOperand
  split <;> simp [*]

theorem toOption_decodeNoOperand (i : Instr) (arg : Word) :
    (decodeNoOperand i arg).toOption = if arg = 0#32 then some i else none := by
  unfold decodeNoOperand
  split <;> rfl

theorem crcReserved_eq_zero_iff (arg : Word) : arg.extractLsb' 1 31 = 0#31 ↔ arg.toNat / 2 = 0 := by
  have harg := arg.isLt
  rw [← BitVec.toNat_inj, BitVec.extractLsb'_toNat, Nat.shiftRight_eq_div_pow, BitVec.toNat_ofNat]
  omega

/-- The operand field of CRCIN is its bit 0 with zeros above. -/
theorem operandOf_crcin_eq_iff (arg : Word) : operandOf (.crcin (arg.getLsbD 0)) = arg ↔ arg.toNat / 2 = 0 := by
  constructor
  · intro h
    rw [← h]
    cases arg.getLsbD 0 <;> rfl
  · intro h
    obtain rfl | rfl : arg = 0#32 ∨ arg = 1#32 := by bv_omega
    · rfl
    · rfl

theorem decodeCrcOperand_eq_ok_iff {i : Instr} {arg : Word} :
    decodeCrcOperand arg = .ok i ↔ .crcin (arg.getLsbD 0) = i ∧ arg.toNat / 2 = 0 := by
  simp only [decodeCrcOperand, crcReserved_eq_zero_iff]
  split <;> simp [*]

theorem toOption_decodeCrcOperand (arg : Word) :
    (decodeCrcOperand arg).toOption = if arg.toNat / 2 = 0 then some (.crcin (arg.getLsbD 0)) else none := by
  simp only [decodeCrcOperand, crcReserved_eq_zero_iff]
  split <;> rfl

/-! ### Decoding and encoding -/

/-- Two words are the same when their fields are (R72). -/
theorem eq_iff_fields {v w : CommandWord} : v = w ↔ wordOp v = wordOp w ∧ wordArg v = wordArg w := by
  constructor
  · rintro rfl
    exact ⟨rfl, rfl⟩
  · rintro ⟨hop, harg⟩
    rw [← append_fields v, hop, harg, append_fields]

/-- A word that decodes to a command has the command's opcode and operand in its fields. -/
theorem fields_of_decode {w : CommandWord} {i : Instr} (h : decode w = .ok i) :
    opcodeOf i = wordOp w ∧ operandOf i = wordArg w := by
  have whole : ∀ {j : Instr}, Except.ok (ε := IllegalWord) j = .ok i → wordOp w = opcodeOf j →
      operandOf j = wordArg w → opcodeOf i = wordOp w ∧ operandOf i = wordArg w := by
    rintro j ⟨⟩ hop harg
    exact ⟨hop.symm, harg⟩
  have noOperand : ∀ {j : Instr}, decodeNoOperand j (wordArg w) = .ok i → wordOp w = opcodeOf j →
      operandOf j = 0#32 → opcodeOf i = wordOp w ∧ operandOf i = wordArg w := by
    intro j h hop hj
    obtain ⟨rfl, harg⟩ := decodeNoOperand_eq_ok_iff.1 h
    exact ⟨hop.symm, hj.trans harg.symm⟩
  unfold decode at h
  split at h
  next hop => exact whole h hop rfl
  next hop => exact whole h hop rfl
  next hop => exact noOperand h hop rfl
  next hop => exact whole h hop rfl
  next hop => exact whole h hop rfl
  next hop =>
    obtain ⟨rfl, harg⟩ := decodeCrcOperand_eq_ok_iff.1 h
    exact ⟨hop.symm, (operandOf_crcin_eq_iff _).2 harg⟩
  next hop => exact noOperand h hop rfl
  next hop => exact noOperand h hop rfl
  next hop => exact noOperand h hop rfl
  next hop => exact noOperand h hop rfl
  next hop => exact noOperand h hop rfl
  next hop => exact noOperand h hop rfl
  next => cases h

/-- A word decodes to a command exactly when it is the command's word. -/
theorem decode_eq_ok_iff {w : CommandWord} {i : Instr} : decode w = .ok i ↔ encode i = w := by
  constructor
  · intro h
    rw [eq_iff_fields, wordOp_encode, wordArg_encode]
    exact fields_of_decode h
  · rintro rfl
    exact decode_encode i

theorem decode_of_fields {w : CommandWord} {i : Instr} (hop : opcodeOf i = wordOp w) (harg : operandOf i = wordArg w) :
    decode w = .ok i := by
  rw [decode_eq_ok_iff, eq_iff_fields, wordOp_encode, wordArg_encode]
  exact ⟨hop, harg⟩

theorem toOption_decode_eq_some_iff {w : CommandWord} {i : Instr} :
    (decode w).toOption = some i ↔ decode w = .ok i := by
  cases decode w <;> simp

theorem toOption_decode_eq_none_iff {w : CommandWord} : (decode w).toOption = none ↔ ∃ e, decode w = .error e := by
  cases decode w <;> simp

/-! ### The illegal words -/

/-- The enumeration of R77, on an opcode field and an operand field. -/
def IllegalFields (op : BitVec 4) (arg : Word) : Prop :=
  (op = 0x0#4 ∨ op = 0xD#4 ∨ op = 0xE#4 ∨ op = 0xF#4) ∨
    ((op = 0x3#4 ∨ op = 0x7#4 ∨ op = 0x8#4 ∨ op = 0x9#4 ∨ op = 0xA#4 ∨ op = 0xB#4 ∨ op = 0xC#4) ∧ arg ≠ 0#32) ∨
    (op = 0x6#4 ∧ arg >>> 1 ≠ 0#32)

/-- The enumeration is what `legalWord` refuses. -/
theorem legalWord_append_eq_false_iff (op : BitVec 4) (arg : Word) :
    legalWord (op ++ arg) = false ↔ IllegalFields op arg := by
  have harg := arg.isLt
  have hdiv : (op ++ arg : BitVec (4 + 32)).toNat / 2 ^ 32 = op.toNat := by rw [toNat_fields]; omega
  have hmod : (op ++ arg : BitVec (4 + 32)).toNat % 2 ^ 32 = arg.toNat := by rw [toNat_fields]; omega
  simp only [legalWord, opcodeAssigned, unusedOperandZero, crcOperandIsBit, hdiv, hmod, IllegalFields,
    Bool.and_eq_false_iff, decide_eq_false_iff_not]
  bv_omega

/-- The enumeration is what the decoder refuses. -/
theorem decode_append_eq_none_iff (op : BitVec 4) (arg : Word) :
    (decode (op ++ arg)).toOption = none ↔ IllegalFields op arg := by
  have hcrc : arg.toNat / 2 = 0 ↔ arg >>> 1 = 0#32 := by
    rw [← BitVec.toNat_inj, BitVec.toNat_ushiftRight, Nat.shiftRight_eq_div_pow]
    rfl
  rw [decode, wordOp_append, wordArg_append]
  split
  case h_13 =>
    -- an opcode of no command
    refine iff_of_true rfl (.inl ?_)
    revert op
    decide
  all_goals simp [toOption_decodeNoOperand, toOption_decodeCrcOperand, hcrc, IllegalFields]

theorem decode_eq_none_iff_not_legal (w : CommandWord) : (decode w).toOption = none ↔ legalWord w = false := by
  rw [← append_fields w]
  exact (decode_append_eq_none_iff _ _).trans (legalWord_append_eq_false_iff _ _).symm

end Sys2Proof

namespace Sys2Proof.Machine

/-- Executing a word that decodes to nothing raises IllegalCommand (R73, R220). -/
theorem acceptWord_of_toOption_none {w : CommandWord} {s : State} (hs : s.fault = 0#3)
    (hw : (decode w).toOption = none) : acceptWord w s = .next (latchFault .illegalCommand s) :=
  have ⟨_, he⟩ := toOption_decode_eq_none_iff.1 hw
  acceptWord_of_illegal he hs

end Sys2Proof.Machine

open Sys2Proof Sys2Proof.Machine

/-- Settles O2: the inversion of the decoder is the converse of `decode_encode`. -/
theorem decodeEncodeAgree : Obligations.DecodeEncodeAgree := ⟨decode_encode, fun _ _ => decode_eq_ok_iff.1⟩

/-- Settles O1, by decoding each word. -/
theorem decodeListedWords : Obligations.DecodeListedWords :=
  ⟨rfl, rfl, rfl, rfl, rfl, rfl, rfl, rfl, rfl, rfl, rfl, rfl, rfl, rfl, rfl, rfl, rfl, rfl⟩

/-- Settles O3: each arm of the decoder is a line of the table, and the last arm is its last line. -/
theorem decodeCaseTable : Obligations.DecodeCaseTable := by
  refine ⟨fun op arg => ?_, fun w s => acceptWord_of_toOption_none,
    fun w s i hw => acceptWord_of_decode (toOption_decode_eq_some_iff.1 hw) s⟩
  rw [decode, wordOp_append, wordArg_append]
  split
  case h_13 =>
    -- an opcode of no command fails the twelve tests
    rw [toOption_error]
    iterate 12 rw [if_neg ‹_›]
  all_goals simp [toOption_decodeNoOperand, toOption_decodeCrcOperand]

/-- Settles O4: the decoder and `legalWord` both refuse exactly the words of the enumeration. -/
theorem illegalWordsExactly : Obligations.IllegalWordsExactly :=
  ⟨decode_append_eq_none_iff, rfl, decode_eq_none_iff_not_legal,
    fun w _ hs hw => acceptWord_of_toOption_none hs ((decode_eq_none_iff_not_legal w).2 hw)⟩
end

section
/-! The opcode table of R72 row by row: a row belongs to a command, and covers the words that decode to that command
with some operand. -/

namespace Sys2Proof

/-- The operand bits that are reserved in a command, and so are fixed at 0 by its row of the table (R75). -/
def reservedBitsOf : Instr → Word
  | .setpoly _ => 0#32
  | .setstate _ => 0#32
  | .syncf _ => 0#32
  | .syncb _ => 0#32
  | .crcin _ => BitVec.allOnes 32 <<< 1
  | .step => BitVec.allOnes 32
  | .crcout => BitVec.allOnes 32
  | .rdstate => BitVec.allOnes 32
  | .rdpoly => BitVec.allOnes 32
  | .rdmask => BitVec.allOnes 32
  | .rdhbit => BitVec.allOnes 32
  | .rddegr => BitVec.allOnes 32

/-- The row of a command: it fixes the opcode and the reserved bits. -/
def rowOf (i : Instr) : TableRow := ⟨mnemonicOf i, BitVec.allOnes 4 ++ reservedBitsOf i, opcodeOf i ++ 0#32⟩

theorem opcodeTable_eq_rows : opcodeTable =
    [.setpoly 0#32, .setstate 0#32, .step, .syncf 0#32, .syncb 0#32, .crcin false, .crcout, .rdstate, .rdpoly, .rdmask,
      .rdhbit, .rddegr].map rowOf := rfl

theorem exists_rowOf {r : TableRow} (hr : r ∈ opcodeTable) : ∃ i, rowOf i = r := by
  rw [opcodeTable_eq_rows] at hr
  obtain ⟨i, -, hi⟩ := List.mem_map.1 hr
  exact ⟨i, hi⟩

/-- A command's row is the only one that carries its mnemonic. -/
theorem filter_mnemonic (i : Instr) : (opcodeTable.filter fun r => r.mnemonic == mnemonicOf i) = [rowOf i] := by
  rw [opcodeTable_eq_rows]
  cases i <;> rfl

theorem rowOf_eq_of_mnemonic {i j : Instr} (h : mnemonicOf i = mnemonicOf j) : rowOf i = rowOf j := by
  rw [← List.singleton_inj, ← filter_mnemonic, ← filter_mnemonic, h]

theorem covers_rowOf_iff (i : Instr) (w : CommandWord) :
    (rowOf i).covers w = true ↔ opcodeOf i = wordOp w ∧ wordArg w &&& reservedBitsOf i = 0#32 := by
  have hop : wordOp (w &&& (rowOf i).mask) = wordOp w := by
    rw [wordOp, BitVec.extractLsb'_and]
    exact (congrArg _ (wordOp_append _ _)).trans BitVec.and_allOnes
  have harg : wordArg (w &&& (rowOf i).mask) = wordArg w &&& reservedBitsOf i := by
    rw [wordArg, BitVec.extractLsb'_and]
    exact congrArg _ (wordArg_append _ _)
  rw [TableRow.covers, beq_iff_eq, eq_iff_fields, hop, harg, rowOf, wordOp_append, wordArg_append, eq_comm]

/-- An operand field without reserved bits is that of a command with the same opcode. -/
theorem exists_instr_of_operand (i : Instr) {arg : Word} (h : arg &&& reservedBitsOf i = 0#32) :
    ∃ j, opcodeOf j = opcodeOf i ∧ operandOf j = arg ∧ mnemonicOf j = mnemonicOf i := by
  have noOperand : arg &&& BitVec.allOnes 32 = 0#32 → 0#32 = arg := fun h => (BitVec.and_allOnes.symm.trans h).symm
  cases i with
  | setpoly _ => exact ⟨.setpoly arg, rfl, rfl, rfl⟩
  | setstate _ => exact ⟨.setstate arg, rfl, rfl, rfl⟩
  | syncf _ => exact ⟨.syncf arg, rfl, rfl, rfl⟩
  | syncb _ => exact ⟨.syncb arg, rfl, rfl, rfl⟩
  | crcin _ =>
    have hbit : (arg >>> 1) <<< 1 = 0#32 := BitVec.shiftLeft_ushiftRight.trans h
    exact ⟨.crcin (arg.getLsbD 0), rfl, (operandOf_crcin_eq_iff arg).2 (by bv_omega), rfl⟩
  | step => exact ⟨.step, rfl, noOperand h, rfl⟩
  | crcout => exact ⟨.crcout, rfl, noOperand h, rfl⟩
  | rdstate => exact ⟨.rdstate, rfl, noOperand h, rfl⟩
  | rdpoly => exact ⟨.rdpoly, rfl, noOperand h, rfl⟩
  | rdmask => exact ⟨.rdmask, rfl, noOperand h, rfl⟩
  | rdhbit => exact ⟨.rdhbit, rfl, noOperand h, rfl⟩
  | rddegr => exact ⟨.rddegr, rfl, noOperand h, rfl⟩

theorem operandOf_and_reservedBitsOf (i : Instr) : operandOf i &&& reservedBitsOf i = 0#32 := by
  cases i with
  | setpoly _ => exact BitVec.and_zero
  | setstate _ => exact BitVec.and_zero
  | syncf _ => exact BitVec.and_zero
  | syncb _ => exact BitVec.and_zero
  | crcin b => cases b <;> rfl
  | _ => rfl

theorem covers_rowOf_encode (i : Instr) : (rowOf i).covers (encode i) = true := by
  rw [covers_rowOf_iff, wordOp_encode, wordArg_encode]
  exact ⟨rfl, operandOf_and_reservedBitsOf i⟩

/-- A word in the row of a command decodes to that command, up to the operand. -/
theorem decode_of_covers {i : Instr} {w : CommandWord} (h : (rowOf i).covers w = true) :
    ∃ j, decode w = .ok j ∧ mnemonicOf j = mnemonicOf i := by
  obtain ⟨hop, harg⟩ := (covers_rowOf_iff i w).1 h
  obtain ⟨j, hjop, hjarg, hj⟩ := exists_instr_of_operand i harg
  exact ⟨j, decode_of_fields (hjop.trans hop) hjarg, hj⟩

/-- A row covers the word of a command exactly when it carries the command's mnemonic. -/
theorem covers_encode_eq {r : TableRow} (hr : r ∈ opcodeTable) (i : Instr) :
    r.covers (encode i) = (r.mnemonic == mnemonicOf i) := by
  obtain ⟨j, rfl⟩ := exists_rowOf hr
  rw [Bool.eq_iff_iff, beq_iff_eq]
  constructor
  · intro h
    obtain ⟨k, hk, hkj⟩ := decode_of_covers h
    obtain rfl : i = k := by simpa using hk
    exact hkj.symm
  · intro h
    rw [rowOf_eq_of_mnemonic h]
    exact covers_rowOf_encode i

end Sys2Proof

open Sys2Proof Sys2Proof.Machine

/-- Settles O5: the rows are those of the commands, and the rows covering a command's word are those of its mnemonic. -/
theorem tableRowsDecode : Obligations.TableRowsDecode := by
  refine ⟨fun r hr w hw => ?_, fun w i hw => ?_⟩
  · obtain ⟨i, rfl⟩ := exists_rowOf hr
    exact decode_of_covers hw
  · rw [← decode_eq_ok_iff.1 hw, List.filter_congr fun r hr => covers_encode_eq hr i, filter_mnemonic]
    rfl
end

section
/-! The response of each command that completes (R76). -/

namespace Sys2Proof.Machine

theorem bitResponse_eq_ite (b : Bool) : bitResponse b = if b then 1#32 else 0#32 := by cases b <;> rfl

theorem degreeResponse_eq_ofNat (d : BitVec 6) : degreeResponse d = BitVec.ofNat 32 d.toNat := by
  simp [degreeResponse]

/-- A command that has a next state shows a response there exactly when it did not fault (R76, R223). -/
theorem exec_rsp_isSome_iff {i : Instr} {s t : State} (h : exec i s = .next t) :
    t.rsp.isSome = true ↔ t.fault = 0#3 := by
  obtain ⟨hf, ⟨c, rfl⟩ | ⟨v, u, hu, rfl⟩⟩ := exec_next_cases h
  · simp [causeCode_ne_zero]
  · simp [hu.fault_eq, hf]

/-- So does an accepted word, legal or not. -/
theorem acceptWord_rsp_isSome_iff {w : CommandWord} {s t : State} (h : acceptWord w s = .next t) :
    t.rsp.isSome = true ↔ t.fault = 0#3 := by
  obtain ⟨i, -, hi⟩ | ⟨e, -, -, rfl⟩ := acceptWord_next_cases h
  · exact exec_rsp_isSome_iff hi
  · simp [causeCode_ne_zero]

/-- A command that needs only a running block answers what it says. -/
theorem rsp_of_running {r : Word} {s u t : State} (h : whenRunning s (respond r u) = .next t) : t.rsp = some r := by
  rw [respond_next (whenRunning_next h).2, answer_rsp]

/-- A command that needs a Configured block answers what it says, unless it faults. -/
theorem rsp_of_configured {r : Word} {s u t : State} (ht : t.fault = 0#3)
    (h : whenRunning s (whenConfigured s (respond r u)) = .next t) : t.rsp = some r := by
  obtain ⟨-, hk⟩ | ⟨-, hk⟩ := whenConfigured_next (whenRunning_next h).2
  · rw [respond_next hk, answer_rsp]
  · exact absurd hk (ne_latchFault_of_running ht _)

end Sys2Proof.Machine

open Sys2Proof Sys2Proof.Machine

/-- Settles O57, command by command. -/
theorem responseValues : Obligations.ResponseValues := by
  intro i s t h
  refine ⟨fun ht => by simpa [ht] using (exec_rsp_isSome_iff h).not.2 ht, fun ht => ?_⟩
  cases i with
  | setpoly p =>
    obtain ⟨-, rfl⟩ | ⟨-, hfault⟩ := exec_setpoly_next h
    · rfl
    · exact absurd hfault (ne_latchFault_of_running ht _)
  | setstate v =>
    obtain ⟨-, hk⟩ | ⟨-, hfault⟩ := whenConfigured_next (whenRunning_next h).2
    · split at hk
      · exact absurd (raiseFault_next hk) (ne_latchFault_of_running ht _)
      · rw [respond_next hk]; rfl
    · exact absurd hfault (ne_latchFault_of_running ht _)
  | step => exact (rsp_of_configured ht h).trans (congrArg some (bitResponse_eq_ite _))
  | crcout => exact (rsp_of_configured ht h).trans (congrArg some (bitResponse_eq_ite _))
  | syncf x => exact rsp_of_configured ht h
  | syncb x => exact rsp_of_configured ht h
  | crcin b => exact rsp_of_configured ht h
  | rdstate => exact rsp_of_running h
  | rdpoly => exact rsp_of_running h
  | rdmask => exact rsp_of_running h
  | rdhbit => exact rsp_of_running h
  | rddegr => exact (rsp_of_running h).trans (congrArg some (degreeResponse_eq_ofNat _))
end

section
/-! The handshake of the ports (R71): the edges at which a response shows, and a Faulted block that accepts no more. -/

namespace Sys2Proof.Machine

/-- An edge that neither resets, completes nor accepts anything only ends the response pulse. -/
theorem edge_of_idle {i : PortsIn} (hrst : i.rst = false) {s : State} (h : acceptsAt i ⟨s, none⟩ = false) :
    edge i ⟨s, none⟩ = ⟨endPulse s, none⟩ := by
  simp [edge_of_not_rst hrst, runEdge, h]

/-- A response shows only after a completing edge. -/
theorem rspValid_edge_eq_false {i : PortsIn} {c : Clocked} (h : ∀ w, c.busy ≠ some ⟨w, 0⟩) :
    rspValid (edge i c) = false := by
  by_cases hrst : i.rst = true
  · rw [edge_of_rst hrst]; rfl
  rw [Bool.not_eq_true] at hrst
  match c, h with
  | ⟨s, some ⟨w, 0⟩⟩, h => exact absurd rfl (h w)
  | ⟨s, some ⟨w, n + 1⟩⟩, _ => rw [edge_of_waiting hrst]; rfl
  | ⟨s, none⟩, _ =>
    cases hacc : acceptsAt i ⟨s, none⟩ with
    | true => rw [edge_of_acceptsAt hacc]; rfl
    | false => rw [edge_of_idle hrst hacc]; rfl

theorem acceptsAt_of_faulted {s : State} (h : s.fault ≠ 0#3) (i : PortsIn) (b : Option InProgress) :
    acceptsAt i ⟨s, b⟩ = false := by
  rw [Bool.eq_false_iff, Ne, acceptsAt_iff]
  exact fun ⟨_, _, hf, _⟩ => h hf

/-- A Faulted block with no command in progress stays as it is until a reset. -/
theorem edges_of_faulted {is : List PortsIn} {s : State} (h : s.fault ≠ 0#3) (hrst : ∀ i ∈ is, i.rst = false) :
    SameFields s (edges is ⟨s, none⟩).block ∧ (edges is ⟨s, none⟩).busy = none := by
  induction is generalizing s with
  | nil => exact ⟨⟨rfl, rfl, rfl, rfl, rfl, rfl⟩, rfl⟩
  | cons i is ih =>
    obtain ⟨hi, his⟩ := List.forall_mem_cons.1 hrst
    rw [edges_cons, edge_of_idle hi (acceptsAt_of_faulted h i none)]
    exact ih (s := endPulse s) h his

theorem cmdReady_of_faulted {c : Clocked} (h : c.block.fault ≠ 0#3) (rst : Bool) : cmdReady rst c = false := by
  simp [cmdReady, (isFaulted_iff _).2 h]

theorem cmdReady_of_idle {s : State} (h : s.fault = 0#3) : cmdReady false ⟨s, none⟩ = true := by
  simp [cmdReady, (isFaulted_eq_false_iff _).2 h]

end Sys2Proof.Machine

open Sys2Proof Sys2Proof.Machine

/-- Settles O58: one edge by its case of the handshake, and a Faulted block by induction on the edges. -/
theorem portHandshake : Obligations.PortHandshake := by
  refine ⟨acceptsAt_iff, fun i c hacc => ?_, fun i c w hrst hbusy hs => ?_, fun i c => rspValid_edge_eq_false,
    fun is c hs hbusy hrst => ?_⟩
  · rw [edge_of_acceptsAt hacc]
    exact ⟨⟨rfl, rfl, rfl, rfl, rfl, rfl⟩, _, rfl, rfl⟩
  · obtain ⟨s, busy⟩ := c
    obtain rfl : busy = some ⟨w, 0⟩ := hbusy
    obtain ⟨t, ht⟩ := acceptWord_of_running hs w
    rw [edge_of_completing hrst ht]
    have hrsp : rspValid ⟨t, none⟩ = true ↔ t.fault = 0#3 := acceptWord_rsp_isSome_iff ht
    exact ⟨t, ht, rfl, fun hf => ⟨hrsp.2 hf, cmdReady_of_idle hf⟩,
      fun hf => ⟨Bool.eq_false_iff.2 (mt hrsp.1 hf), cmdReady_of_faulted hf _⟩⟩
  · obtain ⟨s, busy⟩ := c
    obtain rfl : busy = none := hbusy
    obtain ⟨hsame, hidle⟩ := edges_of_faulted hs hrst
    have hfault : (edges is ⟨s, none⟩).block.fault = s.fault := hsame.2.2.2.2.2
    exact ⟨cmdReady_of_faulted (hfault ▸ hs) _, hsame, hidle⟩
end

section
/-! The bit length of a word, by its bits and by the powers of two on either side of it (00_scope.md section 6); and
from this, what SETPOLY accepts (R101) and the three ways to compute its mask (R102). -/

namespace Sys2Proof.Machine

/-! ### `bitlen` and `ones` as numbers -/

/-- A position is below the bit length exactly when some bit at or above it is set. -/
theorem lt_bitlen_iff (v : Word) (j : Nat) : j < bitlen v ↔ ∃ k, j ≤ k ∧ k < 32 ∧ v.getLsbD k = true := by
  constructor
  · intro h
    have hv : v ≠ 0#32 := fun h0 => by simp [h0] at h
    have hle := bitlen_le v
    exact ⟨bitlen v - 1, by omega, by omega, getLsbD_bitlen_sub_one hv⟩
  · rintro ⟨k, hjk, -, hbit⟩
    by_contra hj
    simp [getLsbD_of_bitlen_le v (j := k) (by omega)] at hbit

/-- The bit length is the exponent of the least power of two above the word. -/
theorem bitlen_le_iff_toNat_lt (v : Word) (n : Nat) : bitlen v ≤ n ↔ v.toNat < 2 ^ n := by
  constructor
  · exact fun h => Nat.lt_pow_two_of_testBit _ fun j hj => getLsbD_of_bitlen_le v (h.trans hj)
  · intro h
    by_contra hn
    obtain ⟨k, hnk, -, hbit⟩ := (lt_bitlen_iff v n).1 (not_le.1 hn)
    have hzero : v.getLsbD k = false := Nat.testBit_lt_two_pow (h.trans_le (Nat.pow_le_pow_right two_pos hnk))
    simp [hzero] at hbit

theorem bitlen_eq_succ_iff (v : Word) (n : Nat) : bitlen v = n + 1 ↔ 2 ^ n ≤ v.toNat ∧ v.toNat < 2 ^ (n + 1) := by
  rw [← bitlen_le_iff_toNat_lt, ← not_lt, ← bitlen_le_iff_toNat_lt]
  omega

theorem bitlen_eq_one_iff (v : Word) : bitlen v = 1 ↔ v = 1#32 := by
  rw [bitlen_eq_succ_iff v 0]
  bv_omega

theorem bitlen_eq_32_iff (v : Word) : bitlen v = 32 ↔ 2 ^ 31 ≤ v.toNat :=
  (bitlen_eq_succ_iff v 31).trans (and_iff_left v.isLt)

/-- The `degree` field shows the bit length itself: nothing is cut off in six bits (R24). -/
theorem bitlen_field_eq_iff (v : Word) {n : Nat} (hn : n < 64) :
    BitVec.ofNat 6 (bitlen v) = BitVec.ofNat 6 n ↔ bitlen v = n := by
  rw [← BitVec.toNat_inj, toNat_bitlen_field, BitVec.toNat_ofNat, Nat.mod_eq_of_lt hn]

theorem toNat_ones {n : Nat} (hn : n ≤ 32) : (ones n).toNat = 2 ^ n - 1 := by
  have hpow : 2 ^ n ≤ 2 ^ 32 := Nat.pow_le_pow_right two_pos hn
  rw [ones, BitVec.toNat_ofNat, Nat.mod_eq_of_lt (by omega)]

/-- `ones(bitlen v)` is one less than a power of two: there is no wrap at bit length 32. -/
theorem toNat_ones_bitlen_add_one (v : Word) : (ones (bitlen v)).toNat + 1 = 2 ^ bitlen v := by
  rw [toNat_ones (bitlen_le v), Nat.sub_add_cancel Nat.one_le_two_pow]

theorem toNat_lt_two_pow_bitlen (v : Word) : v.toNat < 2 ^ bitlen v := (bitlen_le_iff_toNat_lt v _).1 le_rfl

/-- No power of two above the word is less than that of its bit length. -/
theorem two_pow_bitlen_le {v : Word} {n : Nat} (h : v.toNat < 2 ^ n) : 2 ^ bitlen v ≤ 2 ^ n :=
  Nat.pow_le_pow_right two_pos ((bitlen_le_iff_toNat_lt v n).2 h)

end Sys2Proof.Machine

open Sys2Proof Sys2Proof.Machine

/-- Settles O14: SETPOLY writes the bit length, which is compared with 1 and 32 as a number between powers of two. -/
theorem everyNonzeroPolynomialAccepted : Obligations.EveryNonzeroPolynomialAccepted := by
  intro s p hs hp
  have hdegree : (BitVec.ofNat 6 (bitlen p)).toNat = bitlen p := toNat_bitlen_field p
  exact ⟨_, exec_setpoly hs hp, hs, rfl, rfl, hdegree, hdegree.symm ▸ bitlen_pos hp, hdegree.symm ▸ bitlen_le p,
    (bitlen_field_eq_iff p (by decide)).trans (bitlen_eq_one_iff p),
    (bitlen_field_eq_iff p (by decide)).trans (bitlen_eq_32_iff p)⟩

/-- Settles O15: the mask is `ones(bitlen p)`, so each reading is one of the bit length, by powers of two or by bits. -/
theorem maskThreeWays : Obligations.MaskThreeWays := by
  refine ⟨fun s p hs hp => ⟨_, exec_setpoly hs hp, ?_⟩,
    fun s hs => ⟨exec_setpoly hs (by decide), exec_setpoly hs (by decide), exec_setpoly hs (by decide),
      exec_setpoly hs (by decide)⟩⟩
  rw [answer_mask, loadPoly_mask]
  have hmask := toNat_ones_bitlen_add_one p
  have hlt := toNat_lt_two_pow_bitlen p
  refine ⟨⟨by omega, fun n _ hn => ?_⟩, ⟨bitlen p, hmask, hlt, fun m => two_pow_bitlen_le⟩, fun j _ => ?_, rfl⟩
  · have hpos : 1 ≤ 2 ^ n := Nat.one_le_two_pow
    have hpow : 2 ^ bitlen p ≤ 2 ^ n := two_pow_bitlen_le (by omega)
    omega
  · rw [getLsbD_ones (bitlen_le p), decide_eq_true_iff]
    exact lt_bitlen_iff p j
end

section
/-! SETPOLY keeps nothing of the block but the host's list, and so rewinds a sequence of STEP commands (R103). -/

namespace Sys2Proof.Machine

/-- What SETPOLY leaves depends on the block through its fault field and the host's list only. -/
theorem answer_loadPoly_congr {s r : State} (hf : s.fault = r.fault) (hh : s.host = r.host) (v p : Word) :
    answer v (loadPoly p s) = answer v (loadPoly p r) := by
  simp only [answer, loadPoly, hf, hh]

/-- `n` STEP commands in a row on a Configured block complete, and apply the step map `n` times to the register. -/
theorem runAll_replicate_step (n : Nat) {s : State} (hf : s.fault = 0#3) (hp : s.poly ≠ 0#32) :
    ∃ rs u, runAll (List.replicate n .step) s = some (rs, u) ∧
      SameFields (loadState (stepTimes s.poly n s.state) s) u := by
  induction n generalizing s with
  | zero => exact ⟨[], s, rfl, rfl, rfl, rfl, rfl, rfl, rfl⟩
  | succ n ih =>
    obtain ⟨rs, u, hrun, hu⟩ :=
      ih (s := answer (bitResponse (s.state.getLsbD 0)) (loadState (stepWord s.poly s.state) s)) hf hp
    refine ⟨bitResponse (s.state.getLsbD 0) :: rs, u, ?_, hu⟩
    rw [List.replicate_succ, runAll_cons (exec_step hf hp) rfl, hrun]
    rfl

end Sys2Proof.Machine

open Sys2Proof Sys2Proof.Machine

/-- Settles O16: two running blocks have the same fault field, and STEP commands keep a block running. -/
theorem reconfigurationReplacesAll : Obligations.ReconfigurationReplacesAll := by
  refine ⟨fun s r p hs hr hh hp => ⟨_, exec_setpoly hs hp, ?_⟩, fun s p hs hp => ⟨_, exec_setpoly hs hp, ?_⟩,
    fun s p n hs hp => ?_⟩
  · rw [answer_loadPoly_congr (hs.trans hr.symm) hh]
    exact exec_setpoly hr hp
  · exact exec_setpoly (s := answer voidResponse (loadPoly p s)) hs hp
  · obtain ⟨rs, u, hrun, -, -, -, -, -, hfault⟩ :=
      runAll_replicate_step n (s := answer voidResponse (loadPoly p s)) hs hp
    refine ⟨voidResponse :: rs, u, _, ?_, exec_setpoly (hfault.trans hs) hp, rfl, rfl⟩
    rw [runAll_cons (exec_setpoly hs hp) rfl, hrun]
    rfl
end

section
/-! SETPOLY and SETSTATE field by field, with their faults (R100, R104, R106). -/

namespace Sys2Proof.Machine

/-- The one set bit of `highBit` is the top bit of the polynomial's mask (R25). -/
theorem topBit_ones_bitlen {p : Word} (hp : p ≠ 0#32) : topBit (ones (bitlen p)) = 1#32 <<< (bitlen p - 1) := by
  have hhigh := highBit_eq_of_inv (.inr (inv_loadPoly hp State.reset)) hp
  rwa [loadPoly_highBit, loadPoly_degree, toNat_bitlen_field] at hhigh

/-- SETSTATE of an operand that masks to a known non-zero word. -/
theorem exec_setstate_of_masked {s : State} (hf : s.fault = 0#3) (hp : s.poly ≠ 0#32) {v w : Word}
    (hw : v &&& s.mask = w) (hw0 : w ≠ 0#32) :
    exec (.setstate v) s = .next (answer voidResponse (loadState w s)) := by
  subst hw
  exact exec_setstate hf hp hw0

/-- At degree 32 the mask keeps every bit (R106). -/
theorem and_mask_of_degree_32 {s : State} (h : FieldsInv s) (hp : s.poly ≠ 0#32) (hd : s.degree = 32#6) (v : Word) :
    v &&& s.mask = v := by
  rw [mask_eq_of_inv h hp, hd]
  exact BitVec.and_allOnes

end Sys2Proof.Machine

open Sys2Proof Sys2Proof.Machine

/-- Settles O13. -/
theorem setpolyCommand : Obligations.SetpolyCommand :=
  ⟨fun p => decode_encode (.setpoly p),
    fun _ p hs hp => ⟨exec_setpoly hs hp, bitlen_pos hp, bitlen_le p, topBit_ones_bitlen hp⟩,
    fun _ => exec_setpoly_zero, fun _ hs => exec_setpoly hs (by decide)⟩

/-- Settles O17: the masked operand decides on a Configured block, and the Configured test comes before it. -/
theorem setstateCommand : Obligations.SetstateCommand := by
  refine ⟨fun v => decode_encode (.setstate v), fun s v ⟨hf, hp⟩ => exec_setstate_of_masked hf hp rfl,
    fun s v ⟨hf, hp⟩ => exec_setstate_zero hf hp, fun s v hs hp => exec_of_unconfigured hs hp trivial,
    fun s v h hp => ?_, fun s v ⟨_, hp⟩ h hd => ?_, fun s ⟨hf, hp⟩ hmask => ⟨?_, ?_, ?_⟩⟩
  · obtain ⟨hmask, -, -⟩ := (derivedFields_of_inv h).1 hp
    exact ⟨hmask, by rw [hmask, BitVec.and_zero]⟩
  · have hkeep := and_mask_of_degree_32 h hp hd v
    exact ⟨hkeep, by rw [hkeep]⟩
  · exact exec_setstate_of_masked hf hp (hmask ▸ rfl) (by decide)
  · exact exec_setstate_of_masked hf hp (hmask ▸ rfl) (by decide)
  · exact exec_setstate_zero hf hp (hmask ▸ rfl)
end

section
/-! STEP by the bit that leaves the register, bit by bit, and in the corner cases of R122 (R120 to R122). -/

namespace Sys2Proof.Machine

/-! ### The step map -/

theorem stepWord_of_bit_true (poly : Word) {v : Word} (h : v.getLsbD 0 = true) :
    stepWord poly v = (v >>> 1) ^^^ poly := by
  rw [stepWord, h, shiftXor_true]

theorem stepWord_of_bit_false (poly : Word) {v : Word} (h : v.getLsbD 0 = false) : stepWord poly v = v >>> 1 := by
  rw [stepWord, h, shiftXor_false]

theorem stepWord_zero (poly : Word) : stepWord poly 0#32 = 0#32 := stepWord_of_bit_false poly (by decide)

theorem stepWord_one (poly : Word) : stepWord poly 1#32 = poly :=
  (stepWord_of_bit_true poly (by decide)).trans BitVec.zero_xor

theorem getLsbD_stepWord (poly v : Word) (j : Nat) :
    (stepWord poly v).getLsbD j = (v.getLsbD (j + 1) ^^ (v.getLsbD 0 && poly.getLsbD j)) :=
  getLsbD_shiftXor poly v _ j

section Invariant

variable {s : State} (h : FieldsInv s)
include h

theorem stepWord_bits_of_inv {j : Nat} (hj : s.degree.toNat ≤ j) : (stepWord s.poly s.state).getLsbD j = false :=
  shiftXor_bits (fun _ => poly_bits_of_inv h) (fun _ => state_bits_of_inv h) _ hj

variable (hp : s.poly ≠ 0#32)
include hp

/-- The emitted bit re-enters at the top position: nothing is shifted into it, and the polynomial's bit there is 1. -/
theorem stepWord_top_bit_of_inv : (stepWord s.poly s.state).getLsbD (s.degree.toNat - 1) = s.state.getLsbD 0 := by
  rw [getLsbD_stepWord, Nat.sub_add_cancel (degree_pos_of_inv h hp), state_bits_of_inv h le_rfl,
    top_bit_of_inv h hp, Bool.false_xor, Bool.and_true]

theorem stepWord_and_mask_of_inv : stepWord s.poly s.state &&& s.mask = stepWord s.poly s.state := by
  rw [mask_eq_of_inv h hp, and_ones_eq_iff (degree_le_of_inv h)]
  exact fun _ => stepWord_bits_of_inv h

end Invariant

/-! ### The command -/

/-- STEP from a known register value `v` to a known register value `w` and response `r`. -/
theorem exec_step_of_eq {s : State} (hf : s.fault = 0#3) (hp : s.poly ≠ 0#32) {v w r : Word} (hv : s.state = v)
    (hw : stepWord s.poly v = w) (hr : bitResponse (v.getLsbD 0) = r) :
    exec .step s = .next (answer r (loadState w s)) := by
  subst hv hw hr
  exact exec_step hf hp

/-- STEP after a command that wrote the register. -/
theorem exec_step_answer_loadState {s : State} (hf : s.fault = 0#3) (hp : s.poly ≠ 0#32) {u v w r : Word}
    (hw : stepWord s.poly v = w) (hr : bitResponse (v.getLsbD 0) = r) :
    exec .step (answer u (loadState v s)) = .next (answer r (loadState w s)) :=
  exec_step_of_eq (s := answer u (loadState v s)) hf hp rfl hw hr

theorem state_of_exec_step {s t : State} (hf : s.fault = 0#3) (hp : s.poly ≠ 0#32) (h : exec .step s = .next t) :
    t.state = stepWord s.poly s.state := by
  rw [exec_step hf hp] at h
  cases h
  rfl

/-- From a fixed point of the step map with bit 0 set, STEP commands emit 1 for ever. -/
theorem runAll_replicate_step_of_fixed (n : Nat) {s : State} (hf : s.fault = 0#3) (hp : s.poly ≠ 0#32) {v : Word}
    (hv : s.state = v) (hfix : stepWord s.poly v = v) (hbit : v.getLsbD 0 = true) :
    ∃ u, runAll (List.replicate n .step) s = some (List.replicate n 1#32, u) ∧ u.state = v := by
  subst hv
  induction n generalizing s with
  | zero => exact ⟨s, rfl, rfl⟩
  | succ n ih =>
    have hstep : exec .step s = .next (answer 1#32 s) := exec_step_of_eq hf hp rfl hfix (hbit ▸ bitResponse_true)
    obtain ⟨u, hrun, hstate⟩ := ih (s := answer 1#32 s) hf hp hfix hbit
    refine ⟨u, ?_, hstate⟩
    rw [List.replicate_succ, runAll_cons hstep rfl, hrun]
    rfl

end Sys2Proof.Machine

open Sys2Proof Sys2Proof.Machine

/-- Settles O19: the emitted bit decides between the two next states. -/
theorem stepCommand : Obligations.StepCommand := by
  refine ⟨fun arg => ?_,
    fun s ⟨hf, hp⟩ hbit => exec_step_of_eq hf hp rfl (stepWord_of_bit_true _ hbit) (hbit ▸ bitResponse_true),
    fun s ⟨hf, hp⟩ hbit => exec_step_of_eq hf hp rfl (stepWord_of_bit_false _ hbit) (hbit ▸ bitResponse_false),
    fun s hs hp => exec_of_unconfigured hs hp trivial, fun s hs hpoly hstate => ?_⟩
  · rw [decode, wordOp_append, wordArg_append]
    exact toOption_decodeNoOperand .step arg
  · have hp : s.poly ≠ 0#32 := hpoly ▸ by decide
    have first : exec .step s = .next (answer 1#32 (loadState 0xF1#32 s)) :=
      exec_step_of_eq hs hp hstate (by rw [hpoly]; rfl) (by decide)
    have second : exec .step (answer 1#32 (loadState 0xF1#32 s)) = .next (answer 1#32 (loadState 0xF6#32 s)) :=
      exec_step_answer_loadState hs hp (by rw [hpoly]; rfl) (by decide)
    have third : exec .step (answer 1#32 (loadState 0xF6#32 s)) = .next (answer 0#32 (loadState 0x7B#32 s)) :=
      exec_step_answer_loadState hs hp (by rw [hpoly]; rfl) (by decide)
    refine ⟨answer 0#32 (loadState 0x7B#32 s), ?_, rfl⟩
    rw [runAll_cons first rfl, runAll_cons second rfl, runAll_cons third rfl]
    rfl

/-- Settles O20: STEP leaves the step map of the register, whose bits are those of the shift engine. -/
theorem stepBitByBit : Obligations.StepBitByBit := by
  intro s ⟨hf, hp⟩
  refine ⟨_, exec_step hf hp, rfl, fun j _ => getLsbD_stepWord _ _ j, ?_,
    fun h => ⟨fun j => stepWord_bits_of_inv h, stepWord_top_bit_of_inv h hp⟩⟩
  rw [answer_state, loadState_state, getLsbD_stepWord, BitVec.getLsbD_of_ge _ (31 + 1) le_rfl, Bool.false_xor]

/-- Settles O21: each corner case is a value of the step map, a bound on its bits, or a fixed point of it. -/
theorem stepCornerCases : Obligations.StepCornerCases := by
  refine ⟨fun s ⟨hf, hp⟩ hstate => ?_, fun s ⟨hf, hp⟩ hstate => ?_, fun s ⟨hf, hp⟩ hstate hbit => ?_,
    fun s n hs hpoly hstate => ?_, fun s t ⟨hf, hp⟩ h hdegree ht => ?_, fun s hs hpoly hstate => ?_,
    fun s t ⟨hf, hp⟩ h ht => ?_, fun s n hs hpoly hstate => ?_⟩
  · have hfix : stepWord s.poly 0#32 = s.state := (stepWord_zero _).trans hstate.symm
    exact exec_step_of_eq hf hp hstate hfix (by decide)
  · exact exec_step_of_eq hf hp hstate (stepWord_one _) (by decide)
  · exact exec_step_of_eq hf hp hstate (stepWord_of_bit_false _ hbit) (hbit ▸ bitResponse_false)
  · exact runAll_replicate_step_of_fixed n hs (hpoly ▸ by decide) hstate (by rw [hpoly, stepWord_one]) (by decide)
  · have htop := stepWord_top_bit_of_inv h hp
    rw [hdegree] at htop
    exact state_of_exec_step hf hp ht ▸ htop
  · exact exec_step_of_eq hs (hpoly ▸ by decide) hstate (by rw [hpoly]; rfl) (by decide)
  · rw [state_of_exec_step hf hp ht, stepWord_and_mask_of_inv h hp]
  · exact runAll_replicate_step_of_fixed n hs (hpoly ▸ by decide) hstate (by rw [hpoly]; rfl) (by decide)
end

section
/-! SYNCF iteration by iteration (R140) and its corner cases (R142): the loop reads the operand bits below the degree
only, and a single operand bit leaves the polynomial shifted right by the iterations that follow it. -/

namespace Sys2Proof.Machine

theorem syncfLoop_eq_foldl (poly x v : Word) (n : Nat) :
    syncfLoop poly x v n = (List.range n).foldl (fun v i => shiftXor poly (x.getLsbD i) v) v := by
  induction n with
  | zero => rfl
  | succ n ih => rw [syncfLoop_succ, ih, List.range_succ, List.foldl_append, List.foldl_cons, List.foldl_nil]

theorem syncfLoop_congr (poly : Word) {x y : Word} {n : Nat} (hxy : ∀ j, j < n → x.getLsbD j = y.getLsbD j)
    (v : Word) : syncfLoop poly x v n = syncfLoop poly y v n := by
  induction n with
  | zero => rfl
  | succ n ih =>
    obtain ⟨hlow, hn⟩ := Nat.forall_lt_succ_right.1 hxy
    rw [syncfLoop_succ, syncfLoop_succ, ih hlow, hn]

/-- The operand bits that are 0 only shift the register. -/
theorem syncfLoop_of_zero_bits (poly : Word) {x : Word} {n : Nat} (hx : ∀ j, j < n → x.getLsbD j = false)
    (v : Word) : syncfLoop poly x v n = v >>> n := by
  induction n with
  | zero => exact (BitVec.ushiftRight_zero v).symm
  | succ n ih =>
    obtain ⟨hlow, hn⟩ := Nat.forall_lt_succ_right.1 hx
    rw [syncfLoop_succ, hn, shiftXor_false, ih hlow, ← BitVec.shiftRight_add]

/-- The contribution of one operand bit to R198: iteration `k` writes the polynomial into a register of 0, and the
later iterations shift it. -/
theorem syncfLoop_of_single_bit (poly : Word) {x : Word} {k n : Nat} (hk : k < n)
    (hx : ∀ j, j < n → x.getLsbD j = decide (j = k)) : syncfLoop poly x 0#32 n = poly >>> (n - 1 - k) := by
  induction n with
  | zero => omega
  | succ n ih =>
    obtain ⟨hlow, hn⟩ := Nat.forall_lt_succ_right.1 hx
    rw [syncfLoop_succ, hn]
    obtain hkn | rfl := Nat.lt_succ_iff_lt_or_eq.1 hk
    · rw [decide_eq_false (by omega), shiftXor_false, ih hkn hlow, ← BitVec.shiftRight_add,
        show n - 1 - k + 1 = n + 1 - 1 - k by omega]
    · have hzero : ∀ j, j < k → x.getLsbD j = false := fun j hj => (hlow j hj).trans (decide_eq_false (by omega))
      rw [syncfLoop_of_zero_bits poly hzero, BitVec.zero_ushiftRight, decide_eq_true rfl, shiftXor_true,
        BitVec.zero_ushiftRight, BitVec.zero_xor, Nat.add_sub_cancel, Nat.sub_self, BitVec.ushiftRight_zero]

/-- Words that mask to the same word agree below the degree. -/
theorem getLsbD_eq_of_and_ones_eq {n : Nat} (hn : n ≤ 32) {x y : Word} (h : x &&& ones n = y &&& ones n) {j : Nat}
    (hj : j < n) : x.getLsbD j = y.getLsbD j := by
  have hbit := congrArg (·.getLsbD j) h
  simpa only [BitVec.getLsbD_and, getLsbD_ones hn, decide_eq_true hj, Bool.and_true] using hbit

section Invariant

variable {s : State} (h : FieldsInv s) (hp : s.poly ≠ 0#32)
include h hp

/-- SYNCF ignores the operand bits from the degree up (R142). -/
theorem exec_syncf_congr (hf : s.fault = 0#3) {x y : Word} (hxy : x &&& s.mask = y &&& s.mask) :
    exec (.syncf x) s = exec (.syncf y) s := by
  rw [mask_eq_of_inv h hp] at hxy
  rw [exec_syncf hf hp, exec_syncf hf hp,
    syncfLoop_congr s.poly fun _ => getLsbD_eq_of_and_ones_eq (degree_le_of_inv h) hxy]

/-- SYNCF of an operand whose only bit below the degree is bit `k`. -/
theorem exec_syncf_of_single_bit (hf : s.fault = 0#3) {x : Word} {k : Nat} (hk : k < s.degree.toNat)
    (hx : x &&& s.mask = 1#32 <<< k) :
    exec (.syncf x) s = .next (answer voidResponse (loadState (s.poly >>> (s.degree.toNat - 1 - k)) s)) := by
  have hd := degree_le_of_inv h
  have hbits : ∀ j, j < s.degree.toNat → x.getLsbD j = decide (j = k) := by
    intro j hj
    have hbit := congrArg (·.getLsbD j) hx
    simp only [mask_eq_of_inv h hp, BitVec.getLsbD_and, getLsbD_ones hd, decide_eq_true hj, Bool.and_true,
      ← BitVec.twoPow_eq, BitVec.getLsbD_twoPow] at hbit
    rw [hbit, decide_eq_true (by omega : k < 32), Bool.true_and, decide_eq_decide, eq_comm]
  rw [exec_syncf hf hp, syncfLoop_degree_eq h, syncfLoop_of_single_bit s.poly hk hbits]

/-- The top bit of the polynomial is all that is left of it after `degree - 1` shifts. -/
theorem poly_ushiftRight_of_inv : s.poly >>> (s.degree.toNat - 1) = 1#32 := by
  have hpos := degree_pos_of_inv h hp
  apply BitVec.eq_of_getLsbD_eq
  intro j _
  rw [BitVec.getLsbD_ushiftRight]
  cases j with
  | zero => exact top_bit_of_inv h hp
  | succ j =>
    rw [poly_bits_of_inv h (by omega), BitVec.getLsbD_one]
    simp

end Invariant

end Sys2Proof.Machine

open Sys2Proof Sys2Proof.Machine

/-- Settles O26: the recursion of SYNCF's loop is R140's iterations in their order. -/
theorem syncfCommand : Obligations.SyncfCommand := by
  refine ⟨fun x => decode_encode (.syncf x), fun s x ⟨hf, hp⟩ _ => ?_, fun s x ⟨hf, hp⟩ => ⟨_, exec_syncf hf hp x⟩,
    fun s x hs hp => exec_of_unconfigured hs hp trivial, by decide, fun s hs hpoly hdegree hstate => ?_⟩
  · rw [exec_syncf hf hp, syncfLoop_eq_foldl]
    rfl
  · have hloop : syncfLoop s.poly 0xA5#32 s.state s.degree.toNat = 0xA8#32 := by
      rw [hpoly, hdegree, hstate]
      decide
    rw [exec_syncf hs (hpoly ▸ by decide), hloop]
    rfl

/-- Settles O29: the old register is shifted out, the loop reads no operand bit from the degree up, and one operand bit
leaves the shifted polynomial. -/
theorem syncfCornerCases : Obligations.SyncfCornerCases := by
  refine ⟨fun s a x y ⟨hf, hp⟩ h ha hxy => ⟨_, exec_syncf hf hp x, ?_⟩, fun s x ⟨hf, hp⟩ h hx => ?_,
    fun s x ⟨hf, hp⟩ h hx => ?_⟩
  · rw [mask_eq_of_inv h hp, and_ones_eq_iff (degree_le_of_inv h)] at ha
    rw [← exec_syncf hf hp x, exec_syncf_congr h hp hf hxy]
    exact exec_syncf_loadState hf hp h y ha
  · rw [exec_syncf_of_single_bit h hp hf (degree_pos_of_inv h hp) hx, Nat.sub_zero, poly_ushiftRight_of_inv h hp]
    rfl
  · rw [highBit_eq_of_inv h hp] at hx
    rw [exec_syncf_of_single_bit h hp hf (Nat.sub_one_lt_of_lt (degree_pos_of_inv h hp)) hx, Nat.sub_self,
      BitVec.ushiftRight_zero]
    rfl
end

section
/-! The bits a generator emits drive SYNCF as they drove the generator (R141): the responses of `n` STEP commands are
the bits of an operand exactly when its bits below `n` are the bits emitted, and then `n` iterations of SYNCF from the
generator's start leave the generator's final state. -/

namespace Sys2Proof.Machine

/-- The bit that the step `i` (from 0) of the register value `v` emits. -/
def emittedBit (poly v : Word) (i : Nat) : Bool := (stepTimes poly i v).getLsbD 0

theorem emittedBit_succ (poly v : Word) (i : Nat) :
    emittedBit poly v (i + 1) = emittedBit poly (stepWord poly v) i := rfl

/-- The last of `n + 1` steps, where `stepTimes_succ` gives the first. -/
theorem stepTimes_succ_last (poly v : Word) (n : Nat) :
    stepTimes poly (n + 1) v = stepWord poly (stepTimes poly n v) := by
  induction n generalizing v with
  | zero => rfl
  | succ n ih => exact ih (stepWord poly v)

theorem bitResponse_injective : Function.Injective bitResponse := by
  unfold Function.Injective
  decide

/-- The responses of `n` STEP commands in a row. -/
theorem responses_replicate_step (n : Nat) {s : State} (hf : s.fault = 0#3) (hp : s.poly ≠ 0#32) :
    (runAll (List.replicate n .step) s).map Prod.fst =
      some ((List.range n).map fun i => bitResponse (emittedBit s.poly s.state i)) := by
  induction n generalizing s with
  | zero => rfl
  | succ n ih =>
    have hrest := ih (s := answer (bitResponse (s.state.getLsbD 0)) (loadState (stepWord s.poly s.state) s)) hf hp
    obtain ⟨⟨rs, u⟩, hrun, rfl⟩ := Option.map_eq_some_iff.1 hrest
    rw [List.replicate_succ, runAll_cons (exec_step hf hp) rfl, hrun, List.range_succ_eq_map, List.map_cons,
      List.map_map]
    rfl

/-- `n` STEP commands in a row: the bits emitted, in order, and the step map `n` times. -/
theorem runAll_replicate_step_emitted (n : Nat) {s : State} (hf : s.fault = 0#3) (hp : s.poly ≠ 0#32) :
    ∃ u, runAll (List.replicate n .step) s =
        some ((List.range n).map fun i => bitResponse (emittedBit s.poly s.state i), u) ∧
      SameFields (loadState (stepTimes s.poly n s.state) s) u := by
  obtain ⟨rs, u, hrun, hu⟩ := runAll_replicate_step n hf hp
  have hrs := responses_replicate_step n hf hp
  rw [hrun] at hrs
  obtain rfl := Option.some.inj hrs
  exact ⟨u, hrun, hu⟩

/-- Two blocks with the same polynomial and register stay together under STEP. -/
theorem runAll_replicate_step_congr (n : Nat) {s r : State} (hsf : s.fault = 0#3) (hrf : r.fault = 0#3)
    (hp : s.poly ≠ 0#32) (hpoly : r.poly = s.poly) (hstate : r.state = s.state) :
    ∃ qs t u, runAll (List.replicate n .step) s = some (qs, t) ∧ runAll (List.replicate n .step) r = some (qs, u) ∧
      t.state = u.state := by
  obtain ⟨t, hsrun, htstate, -⟩ := runAll_replicate_step_emitted n hsf hp
  obtain ⟨u, hrrun, hustate, -⟩ := runAll_replicate_step_emitted n hrf (hpoly ▸ hp)
  rw [hpoly, hstate] at hrrun hustate
  exact ⟨_, t, u, hsrun, hrrun, htstate.trans hustate.symm⟩

theorem emitted_eq_bitResponses_iff (poly v x : Word) (n : Nat) :
    ((List.range n).map fun i => bitResponse (emittedBit poly v i)) = bitResponses x n ↔
      ∀ i, i < n → emittedBit poly v i = x.getLsbD i := by
  simp only [bitResponses, List.map_inj_left, List.mem_range, bitResponse_injective.eq_iff]

/-- SYNCF driven by the bits the register itself would emit is the step map repeated (R141). -/
theorem stepTimes_eq_syncfLoop {poly v x : Word} {n : Nat} (hx : ∀ i, i < n → emittedBit poly v i = x.getLsbD i) :
    stepTimes poly n v = syncfLoop poly x v n := by
  induction n with
  | zero => rfl
  | succ n ih =>
    obtain ⟨hlow, hn⟩ := Nat.forall_lt_succ_right.1 hx
    rw [stepTimes_succ_last, syncfLoop_succ, ← ih hlow, ← hn]
    rfl

/-- The state SYNCF leaves depends on the polynomial and the operand only (R141). -/
theorem syncfLoop_eq_of_poly_eq {g r : State} (hg : FieldsInv g) (hr : FieldsInv r) (hpoly : r.poly = g.poly)
    (x : Word) : syncfLoop r.poly x r.state r.degree.toNat = syncfLoop g.poly x g.state g.degree.toNat := by
  obtain ⟨-, hdegree, -⟩ := (derivedFields_of_inv hg).eq_of_poly_eq (derivedFields_of_inv hr) hpoly
  rw [syncfLoop_degree_eq hr, syncfLoop_degree_eq hg, hpoly, hdegree]

end Sys2Proof.Machine

open Sys2Proof Sys2Proof.Machine

/-- Settles O30: the bits the generator emits give SYNCF the feedback that STEP gave the generator, and the receiver's
own register is shifted out. -/
theorem syncfTracksGenerator : Obligations.SyncfTracksGenerator := by
  intro g r ⟨hgf, hgp⟩ hg ⟨hrf, hrp⟩ hr hpoly
  obtain ⟨u, hrun, hustate, hupoly, -, -, -, hufault⟩ := runAll_replicate_step_emitted g.degree.toNat hgf hgp
  refine ⟨_, u, hrun, ⟨BitVec.ofFnLE fun i : Fin 32 => emittedBit g.poly g.state i, ?_⟩, fun x hx => ?_⟩
  · have hd := degree_le_of_inv hg
    refine (emitted_eq_bitResponses_iff _ _ _ _).2 fun i hi => ?_
    rw [BitVec.getLsbD_ofFnLE, dif_pos (hi.trans_le hd)]
  · have hstate : syncfLoop r.poly x r.state r.degree.toNat = u.state := by
      rw [syncfLoop_eq_of_poly_eq hg hr hpoly, ← stepTimes_eq_syncfLoop ((emitted_eq_bitResponses_iff _ _ _ _).1 hx)]
      exact hustate.symm
    exact ⟨_, exec_syncf hrf hrp x, hstate, fun n => runAll_replicate_step_congr n hrf (hufault.trans hgf) hrp
      (hupoly.trans hpoly.symm) hstate.symm⟩
end

section
/-! SYNCB bit by bit (R143), and that STEP emits the bits of its operand from the state it leaves (R144, R146). The
loop's last iteration is at operand bit 0 and the first STEP undoes it; what remains of the loop is the loop for
the operand shifted right by one. -/

namespace Sys2Proof.Machine

theorem syncbBits_eq_foldl (poly x v : Word) (n : Nat) :
    syncbBits poly x n v =
      (List.range n).reverse.foldl (fun v j => (if x.getLsbD j then v ^^^ poly else v) <<< 1) v := by
  induction n generalizing v with
  | zero => rfl
  | succ n ih => rw [syncbBits_succ, ih, List.range_succ, List.reverse_append]; rfl

/-- The last of `n + 1` iterations, at operand bit 0, where `syncbBits_succ` gives the first. -/
theorem syncbBits_succ_last (poly x v : Word) (n : Nat) :
    syncbBits poly x (n + 1) v =
      (if x.getLsbD 0 then syncbBits poly (x >>> 1) n v ^^^ poly else syncbBits poly (x >>> 1) n v) <<< 1 := by
  induction n generalizing v with
  | zero => rfl
  | succ n ih => rw [syncbBits_succ, ih, syncbBits_succ, BitVec.getLsbD_ushiftRight, Nat.add_comm 1 n]

theorem getLsbD_zero_syncbBits_succ (poly x v : Word) (n : Nat) : (syncbBits poly x (n + 1) v).getLsbD 0 = false :=
  getLsbD_syncbBits_of_zero_bits poly n.succ_pos (fun _ hj => absurd hj (Nat.not_lt_zero _)) v

/-- The last iteration of SYNCB bit by bit: `getLsbD_stepWord` with the shift the other way. -/
theorem getLsbD_succ_syncbBits_succ (poly x v : Word) {n j : Nat} (hj : j + 1 < 32) :
    (syncbBits poly x (n + 1) v).getLsbD (j + 1) =
      ((syncbBits poly (x >>> 1) n v).getLsbD j ^^ (x.getLsbD 0 && poly.getLsbD j)) := by
  rw [syncbBits_succ_last, BitVec.getLsbD_shiftLeft]
  cases x.getLsbD 0 <;> simp [hj]

/-- A register value that agrees below `n` with the loop's result XOR the operand emits the operand's bits below `n`
(R200). -/
theorem emittedBit_of_syncbBits {poly x v w : Word} {n : Nat} (hn : n ≤ 32)
    (hw : ∀ j, j < n → w.getLsbD j = (syncbBits poly x n v ^^^ x).getLsbD j) :
    ∀ i, i < n → emittedBit poly w i = x.getLsbD i := by
  induction n generalizing x w with
  | zero => exact fun i hi => absurd hi (Nat.not_lt_zero i)
  | succ n ih =>
    have hfirst : w.getLsbD 0 = x.getLsbD 0 := by
      rw [hw 0 n.succ_pos, BitVec.getLsbD_xor, getLsbD_zero_syncbBits_succ, Bool.false_xor]
    have hrest : ∀ j, j < n → (stepWord poly w).getLsbD j = (syncbBits poly (x >>> 1) n v ^^^ x >>> 1).getLsbD j := by
      intro j hj
      rw [getLsbD_stepWord, hfirst, hw (j + 1) (by omega), BitVec.getLsbD_xor, BitVec.getLsbD_xor,
        getLsbD_succ_syncbBits_succ _ _ _ (by omega), BitVec.getLsbD_ushiftRight, Nat.add_comm 1 j,
        Bool.xor_right_comm]
      simp
    intro i hi
    cases i with
    | zero => exact hfirst
    | succ i => rw [emittedBit_succ, ih (by omega) hrest i (by omega), BitVec.getLsbD_ushiftRight, Nat.add_comm]

/-- The register after SYNCB on a block that keeps R32, over the operand bits below the degree. -/
def syncbResult (s : State) (x : Word) : Word := (syncbBits s.poly x s.degree.toNat 0#32 ^^^ x) &&& s.mask

section Invariant

variable {s : State} (h : FieldsInv s) (hp : s.poly ≠ 0#32)
include h hp

/-- From `highBit` on, SYNCB's loop runs over the operand bits below the degree. -/
theorem syncbLoop_of_inv (x v : Word) : syncbLoop s.poly x 32 s.highBit v = syncbBits s.poly x s.degree.toNat v := by
  have hd := degree_le_of_inv h
  have hpos := degree_pos_of_inv h hp
  rw [highBit_eq_of_inv h hp, syncbLoop_eq_syncbBits _ _ (by omega) (by omega), Nat.sub_add_cancel hpos]

theorem exec_syncb_of_inv (hf : s.fault = 0#3) (x : Word) :
    exec (.syncb x) s = .next (answer voidResponse (loadState (syncbResult s x) s)) := by
  rw [exec_syncb hf hp, syncbLoop_of_inv h hp, syncbResult]

/-- SYNCB leaves the register within the degree. -/
theorem syncbResult_bits (x : Word) : ∀ j, s.degree.toNat ≤ j → (syncbResult s x).getLsbD j = false := by
  rw [← and_ones_eq_iff (degree_le_of_inv h), ← mask_eq_of_inv h hp, syncbResult, BitVec.and_assoc, BitVec.and_self]

/-- The state SYNCB leaves emits the operand's bits (R144). -/
theorem emittedBit_syncbResult (x : Word) :
    ∀ i, i < s.degree.toNat → emittedBit s.poly (syncbResult s x) i = x.getLsbD i := by
  have hd := degree_le_of_inv h
  refine emittedBit_of_syncbBits (v := 0#32) hd fun j hj => ?_
  rw [syncbResult, mask_eq_of_inv h hp, BitVec.getLsbD_and, getLsbD_ones hd, decide_eq_true hj, Bool.and_true]

/-- The state SYNCB leaves is the one from which its operand's bits lead to what SYNCF leaves (R146). -/
theorem stepTimes_syncbResult (x : Word) :
    stepTimes s.poly s.degree.toNat (syncbResult s x) = syncfLoop s.poly x s.state s.degree.toNat :=
  (stepTimes_eq_syncfLoop (emittedBit_syncbResult h hp x)).trans
    (syncfLoop_eq_of_poly_eq h (inv_loadState h hp (syncbResult_bits h hp x)) rfl x)

/-- SYNCB and then `degree` STEP commands: their responses are the operand's bits, and they lead to the state that
SYNCF leaves. -/
theorem runAll_steps_after_syncb (hf : s.fault = 0#3) (x : Word) :
    ∃ t u, exec (.syncb x) s = .next t ∧ t.rsp = some voidResponse ∧
      runAll (List.replicate s.degree.toNat .step) t = some (bitResponses x s.degree.toNat, u) ∧
      u.state = syncfLoop s.poly x s.state s.degree.toNat := by
  obtain ⟨u, hrun, hstate, -⟩ := runAll_replicate_step_emitted s.degree.toNat
    (s := answer voidResponse (loadState (syncbResult s x) s)) hf hp
  refine ⟨_, u, exec_syncb_of_inv h hp hf x, rfl, ?_, hstate.trans (stepTimes_syncbResult h hp x)⟩
  rw [hrun, ← (emitted_eq_bitResponses_iff _ _ _ _).2 (emittedBit_syncbResult h hp x)]
  rfl

end Invariant

end Sys2Proof.Machine

open Sys2Proof Sys2Proof.Machine

/-- Settles O31: on a block that keeps R32 the probe of SYNCB's loop visits the operand bits below the degree, highest
first. -/
theorem syncbCommand : Obligations.SyncbCommand := by
  refine ⟨fun x => decode_encode (.syncb x), fun s x ⟨hf, hp⟩ h => ?_,
    fun s x ⟨hf, hp⟩ => ⟨_, ?_, exec_syncb hf hp x⟩, fun s x hs hp => exec_of_unconfigured hs hp trivial,
    fun s hs hpoly hmask hhigh => ?_⟩
  · rw [exec_syncb_of_inv h hp hf, syncbResult, syncbBits_eq_foldl]
    rfl
  · rw [loadState_state, BitVec.and_assoc, BitVec.and_self]
  · have hstate : (syncbLoop s.poly 0xA5#32 32 s.highBit 0#32 ^^^ 0xA5#32) &&& s.mask = 0x49#32 := by
      rw [hpoly, hmask, hhigh]
      decide
    rw [exec_syncb hs (hpoly ▸ by decide), hstate]
    rfl

/-- Settles O32: each STEP takes out what SYNCB's loop put in for one operand bit. -/
theorem syncbReproducesOperand : Obligations.SyncbReproducesOperand := by
  intro s x ⟨hf, hp⟩ h
  obtain ⟨t, u, ht, -, hrun, -⟩ := runAll_steps_after_syncb h hp hf x
  exact ⟨t, u, ht, hrun⟩

/-- Settles O35: the bits emitted after SYNCB are its operand's, and the bits emitted drive SYNCF. -/
theorem syncDuality : Obligations.SyncDuality := by
  intro s x ⟨hf, hp⟩ h
  obtain ⟨t, u, ht, hrsp, hrun, hstate⟩ := runAll_steps_after_syncb h hp hf x
  refine ⟨_, u, exec_syncf hf hp x, ?_, hstate⟩
  rw [runAll_cons ht hrsp, hrun]
  rfl
end

section
/-! CRCIN and CRCOUT on a known register value, and sequences of them (R160 to R167): CRCIN is the step map XOR the
polynomial where the data bit is 1, and a bare shift where the data bit is the outgoing bit; CRCOUT is always the bare
shift. -/

namespace Sys2Proof.Machine

/-! ### One CRCIN -/

/-- The register after CRCIN of the data bit `b` (R160). -/
def crcinWord (poly v : Word) (b : Bool) : Word := shiftXor poly (v.getLsbD 0 ^^ b) v

theorem crcinWord_of_feedback (poly : Word) {v : Word} {b : Bool} (h : (v.getLsbD 0 ^^ b) = true) :
    crcinWord poly v b = (v >>> 1) ^^^ poly := by
  rw [crcinWord, h, shiftXor_true]

theorem crcinWord_of_no_feedback (poly : Word) {v : Word} {b : Bool} (h : (v.getLsbD 0 ^^ b) = false) :
    crcinWord poly v b = v >>> 1 := by
  rw [crcinWord, h, shiftXor_false]

/-- The data bit that cancels the feedback is the outgoing bit (R161). -/
theorem crcinWord_outgoing_bit (poly v : Word) : crcinWord poly v (v.getLsbD 0) = v >>> 1 :=
  crcinWord_of_no_feedback poly (Bool.xor_self _)

theorem crcinWord_false (poly v : Word) : crcinWord poly v false = stepWord poly v := by
  rw [crcinWord, Bool.xor_false, stepWord]

theorem shiftXor_not (poly v : Word) (b : Bool) : shiftXor poly (!b) v = shiftXor poly b v ^^^ poly := by
  cases b
  · rfl
  · rw [shiftXor_true, BitVec.xor_assoc, BitVec.xor_self, BitVec.xor_zero, Bool.not_true, shiftXor_false]

theorem crcinWord_eq_stepWord_xor (poly v : Word) (b : Bool) :
    crcinWord poly v b = stepWord poly v ^^^ (if b then poly else 0#32) := by
  cases b
  · exact (crcinWord_false poly v).trans BitVec.xor_zero.symm
  · rw [crcinWord, Bool.xor_true, shiftXor_not, stepWord, if_pos rfl]

/-- CRCIN from a known register value `v` to a known register value `w`. -/
theorem exec_crcin_of_eq {s : State} (hf : s.fault = 0#3) (hp : s.poly ≠ 0#32) {v w : Word} {b : Bool}
    (hv : s.state = v) (hw : crcinWord s.poly v b = w) :
    exec (.crcin b) s = .next (answer voidResponse (loadState w s)) := by
  subst hv hw
  exact exec_crcin hf hp b

/-! ### A sequence of CRCIN -/

/-- CRCIN commands in a row on a Configured block complete, answer 0 each, and change only the register. -/
theorem runAll_map_crcin (ms : List Bool) {s : State} (hf : s.fault = 0#3) (hp : s.poly ≠ 0#32) :
    ∃ u, runAll (ms.map Instr.crcin) s = some (List.replicate ms.length 0#32, u) ∧
      SameFields (loadState (ms.foldl (crcinWord s.poly) s.state) s) u := by
  induction ms generalizing s with
  | nil => exact ⟨s, rfl, rfl, rfl, rfl, rfl, rfl, rfl⟩
  | cons b ms ih =>
    obtain ⟨u, hrun, hu⟩ := ih (s := answer voidResponse (loadState (crcinWord s.poly s.state b) s)) hf hp
    refine ⟨u, ?_, hu⟩
    rw [List.map_cons, runAll_cons (exec_crcin_of_eq hf hp rfl rfl) rfl, hrun]
    rfl

theorem foldl_crcinWord_replicate_false (poly v : Word) (n : Nat) :
    (List.replicate n false).foldl (crcinWord poly) v = stepTimes poly n v := by
  induction n generalizing v with
  | zero => rfl
  | succ n ih => rw [List.replicate_succ, List.foldl_cons, crcinWord_false, ih, stepTimes_succ]

/-- The first `n` bits of a word, lowest first. -/
def lowBits (x : Word) (n : Nat) : List Bool := (List.range n).map x.getLsbD

theorem crcinBits_eq_map (x : Word) (n : Nat) : crcinBits x n = (lowBits x n).map Instr.crcin := by
  rw [crcinBits, lowBits, List.map_map]
  rfl

/-- Fed its own bits in the order they leave, the register is only shifted (R167). -/
theorem foldl_crcinWord_own_bits (poly v : Word) (n : Nat) : (lowBits v n).foldl (crcinWord poly) v = v >>> n := by
  induction n with
  | zero => rfl
  | succ n ih =>
    have hbit : v.getLsbD n = (v >>> n).getLsbD 0 := by rw [BitVec.getLsbD_ushiftRight, Nat.add_zero]
    rw [lowBits, List.range_succ, List.map_append, List.foldl_append, ← lowBits, ih, List.map_singleton,
      List.foldl_cons, List.foldl_nil, hbit, crcinWord_outgoing_bit, BitVec.shiftRight_add]

/-! ### CRCOUT -/

/-- CRCOUT from a known register value `v` to a known register value `w` and response `r`. -/
theorem exec_crcout_of_eq {s : State} (hf : s.fault = 0#3) (hp : s.poly ≠ 0#32) {v w r : Word} (hv : s.state = v)
    (hw : v >>> 1 = w) (hr : bitResponse (v.getLsbD 0) = r) :
    exec .crcout s = .next (answer r (loadState w s)) := by
  subst hv hw hr
  exact exec_crcout hf hp

theorem bitResponses_succ (x : Word) (n : Nat) :
    bitResponses x (n + 1) = bitResponse (x.getLsbD 0) :: bitResponses (x >>> 1) n := by
  simp only [bitResponses, List.range_succ_eq_map, List.map_cons, List.map_map, Function.comp_def,
    BitVec.getLsbD_ushiftRight, Nat.add_comm 1]

theorem bitResponses_zero (n : Nat) : bitResponses 0#32 n = List.replicate n 0#32 := by
  simp [bitResponses, List.map_const']

/-- `n` CRCOUT commands in a row answer the register's bits below `n`, bit 0 first, and change only the register. -/
theorem runAll_replicate_crcout_bits (n : Nat) {s : State} (hf : s.fault = 0#3) (hp : s.poly ≠ 0#32) :
    ∃ u, runAll (List.replicate n .crcout) s = some (bitResponses s.state n, u) ∧
      SameFields (loadState (s.state >>> n) s) u := by
  induction n generalizing s with
  | zero => exact ⟨s, rfl, rfl, rfl, rfl, rfl, rfl, rfl⟩
  | succ n ih =>
    obtain ⟨u, hrun, hstate, hrest⟩ :=
      ih (s := answer (bitResponse (s.state.getLsbD 0)) (loadState (s.state >>> 1) s)) hf hp
    refine ⟨u, ?_, hstate.trans ?_, hrest⟩
    · rw [List.replicate_succ, runAll_cons (exec_crcout hf hp) rfl, hrun, bitResponses_succ]
      rfl
    · exact (Nat.add_comm 1 n ▸ BitVec.shiftRight_add s.state 1 n).symm

/-! ### The bare shift -/

theorem getLsbD_31_ushiftRight_one (v : Word) : (v >>> 1).getLsbD 31 = false := by
  rw [BitVec.getLsbD_ushiftRight, BitVec.getLsbD_of_ge _ _ (by decide)]

theorem toNat_ushiftRight_one_lt {v : Word} (h : v ≠ 0#32) : (v >>> 1).toNat < v.toNat := by
  rw [BitVec.toNat_ushiftRight, Nat.shiftRight_eq_div_pow]
  exact Nat.div_lt_self (Nat.pos_of_ne_zero fun h0 => h (BitVec.eq_of_toNat_eq h0)) (by decide)

/-- A shift right drops bit 0 from the count of set bits and keeps the others. -/
theorem countP_ushiftRight_one_le (v : Word) :
    ((List.range 32).countP fun j => (v >>> 1).getLsbD j) ≤ (List.range 32).countP fun j => v.getLsbD j := by
  have hall : ((List.range 32).countP fun j => v.getLsbD j) = (List.range 33).countP fun j => v.getLsbD j := by
    rw [List.range_succ (n := 32), List.countP_append, List.countP_singleton, BitVec.getLsbD_of_ge v 32 le_rfl]
    rfl
  have hshift : ((List.range 32).countP fun j => (v >>> 1).getLsbD j) =
      ((List.range 32).map Nat.succ).countP fun j => v.getLsbD j := by
    simp only [List.countP_map, Function.comp_def, BitVec.getLsbD_ushiftRight, Nat.add_comm 1, Nat.succ_eq_add_one]
  rw [hall, hshift, List.range_succ_eq_map (n := 32), List.countP_cons]
  exact Nat.le_add_right _ _

end Sys2Proof.Machine

open Sys2Proof Sys2Proof.Machine

/-- Settles O37: without a data bit CRCIN is the step map, with the outgoing bit the bare shift, and otherwise the step
map XOR the polynomial. -/
theorem crcinCompared : Obligations.CrcinCompared := by
  refine ⟨fun s ⟨hf, hp⟩ => ⟨_, _, exec_step hf hp, exec_crcin_of_eq hf hp rfl (crcinWord_false _ _), rfl⟩,
    fun s n ⟨hf, hp⟩ => ?_,
    fun s ⟨hf, hp⟩ => ⟨_, _, exec_crcout hf hp, exec_crcin_of_eq hf hp rfl (crcinWord_outgoing_bit _ _), rfl⟩,
    fun s b ⟨hf, hp⟩ => ⟨_, _, exec_step hf hp, exec_crcin hf hp b, crcinWord_eq_stepWord_xor _ _ b⟩⟩
  obtain ⟨rs, t, hsteps, htstate, -⟩ := runAll_replicate_step n hf hp
  obtain ⟨u, hcrcins, hustate, -⟩ := runAll_map_crcin (List.replicate n false) hf hp
  rw [List.map_replicate, List.length_replicate] at hcrcins
  rw [foldl_crcinWord_replicate_false] at hustate
  exact ⟨rs, t, u, hsteps, hcrcins, hustate.trans htstate.symm⟩

/-- Settles O40: CRCOUT is the bare shift. -/
theorem crcoutOnlyShrinks : Obligations.CrcoutOnlyShrinks := by
  intro s ⟨hf, hp⟩
  refine ⟨_, exec_crcout hf hp, fun hstate => ?_, fun hstate => ?_, countP_ushiftRight_one_le _,
    toNat_ushiftRight_one_lt, getLsbD_31_ushiftRight_one _⟩
  · rw [answer_rsp, answer_state, loadState_state, hstate]
    decide
  · rw [answer_rsp, answer_state, loadState_state, hstate]
    decide

/-- Settles O41: the register's bits leave from bit 0 up, and a register within its degree is then 0. -/
theorem drainReadsRemainder : Obligations.DrainReadsRemainder := by
  intro s ⟨hf, hp⟩ h
  obtain ⟨u, hrun, hshifted, hpoly, -, -, -, hfault⟩ := runAll_replicate_crcout_bits s.degree.toNat hf hp
  have hstate : u.state = 0#32 := hshifted.trans (state_ushiftRight_degree h)
  refine ⟨u, hrun, hstate, fun n => ?_⟩
  obtain ⟨v, hrun', hshifted', -⟩ := runAll_replicate_crcout_bits n (hfault.trans hf) (hpoly.trans_ne hp)
  rw [hstate, bitResponses_zero] at hrun'
  rw [loadState_state, hstate, BitVec.zero_ushiftRight] at hshifted'
  exact ⟨v, hrun', hshifted'⟩

/-- Settles O42: a register fed its own bits is shifted out; in the example the second byte is what the first left. -/
theorem refeedCancels : Obligations.RefeedCancels := by
  refine ⟨fun s ⟨hf, hp⟩ h => ?_, fun s hs hpoly hstate => ?_⟩
  · obtain ⟨u, hrun, hustate, -⟩ := runAll_map_crcin (lowBits s.state s.degree.toNat) hf hp
    rw [foldl_crcinWord_own_bits, loadState_state, state_ushiftRight_degree h] at hustate
    exact ⟨_, u, crcinBits_eq_map _ _ ▸ hrun, hustate⟩
  · have hp : s.poly ≠ 0#32 := hpoly ▸ by decide
    obtain ⟨u, hdata, hufold, hupoly, -, -, -, hufault⟩ := runAll_map_crcin (lowBits 0x31#32 8) hs hp
    have hustate : u.state = 0x88#32 := by
      rw [hufold, loadState_state, hpoly, hstate]
      decide
    obtain ⟨v, hrefeed, hvfold, -⟩ := runAll_map_crcin (lowBits 0x88#32 8) (hufault.trans hs) (hupoly.trans_ne hp)
    rw [hustate, foldl_crcinWord_own_bits] at hvfold
    exact ⟨_, u, _, v, crcinBits_eq_map _ _ ▸ hdata, hustate, crcinBits_eq_map _ _ ▸ hrefeed, hvfold⟩

/-- Settles O36: bit 0 XOR the data bit decides between the two next states. -/
theorem crcinCommand : Obligations.CrcinCommand := by
  refine ⟨fun arg => ?_, fun s b ⟨hf, hp⟩ hbit => exec_crcin_of_eq hf hp rfl (crcinWord_of_feedback _ hbit),
    fun s b ⟨hf, hp⟩ hbit => exec_crcin_of_eq hf hp rfl (crcinWord_of_no_feedback _ hbit),
    fun s b hs hp => exec_of_unconfigured hs hp trivial,
    fun s hs hpoly hstate => exec_crcin_of_eq hs (hpoly ▸ by decide) hstate (crcinWord_of_no_feedback _ (by decide)),
    fun s hs hpoly hstate => exec_crcin_of_eq hs (hpoly ▸ by decide) hstate (by rw [hpoly]; rfl)⟩
  have hreserved : arg >>> 1 = 0#32 ↔ arg.toNat / 2 = 0 := by
    rw [← BitVec.toNat_inj, BitVec.toNat_ushiftRight, Nat.shiftRight_eq_div_pow, Nat.pow_one, BitVec.toNat_ofNat,
      Nat.zero_mod]
  rw [decode, wordOp_append, wordArg_append]
  simp only [toOption_decodeCrcOperand, hreserved]

/-- Settles O39. -/
theorem crcoutCommand : Obligations.CrcoutCommand := by
  refine ⟨fun arg => ?_, fun s ⟨hf, hp⟩ => exec_crcout_of_eq hf hp rfl rfl (bitResponse_eq_ite _),
    fun s hs hp => exec_of_unconfigured hs hp trivial,
    fun s ⟨hf, hp⟩ hstate => exec_crcout_of_eq hf hp hstate (by decide) (by decide),
    fun s ⟨hf, hp⟩ hstate => exec_crcout_of_eq hf hp hstate (by decide) (by decide)⟩
  rw [decode, wordOp_append, wordArg_append]
  exact toOption_decodeNoOperand .crcout arg
end

section
/-! The accessors RDSTATE to RDDEGR (44_accessors.md): what they answer as numbers on a block that keeps R32 (R180 to
R184), what a sequence of commands without SETPOLY leaves for RDPOLY to answer (R181), and that a sequence of accessors
changes the response port only, at which no command looks (R185). -/

namespace Sys2Proof.Machine

/-! ### One accessor -/

/-- The five commands of 44_accessors.md. -/
def IsAccessor (i : Instr) : Prop :=
  i = .rdstate ∨ i = .rdpoly ∨ i = .rdmask ∨ i = .rdhbit ∨ i = .rddegr

/-- On a running block an accessor completes, and its response is all it leaves. -/
theorem exec_accessor {i : Instr} (hi : IsAccessor i) {s : State} (hf : s.fault = 0#3) :
    ∃ r, exec i s = .next (answer r s) := by
  obtain rfl | rfl | rfl | rfl | rfl := hi
  · exact ⟨_, exec_rdstate hf⟩
  · exact ⟨_, exec_rdpoly hf⟩
  · exact ⟨_, exec_rdmask hf⟩
  · exact ⟨_, exec_rdhbit hf⟩
  · exact ⟨_, exec_rddegr hf⟩

/-! ### The words of the accessors -/

/-- The opcodes 0x8 to 0xC are those of the accessors (R72). -/
theorem exists_accessor_of_opcode {op : BitVec 4} (h8 : 8 ≤ op.toNat) (h12 : op.toNat ≤ 12) :
    ∃ i, IsAccessor i ∧ opcodeOf i = op ∧ operandOf i = 0#32 := by
  obtain rfl | rfl | rfl | rfl | rfl : op = 0x8#4 ∨ op = 0x9#4 ∨ op = 0xA#4 ∨ op = 0xB#4 ∨ op = 0xC#4 := by
    bv_omega
  · exact ⟨.rdstate, .inl rfl, rfl, rfl⟩
  · exact ⟨.rdpoly, .inr (.inl rfl), rfl, rfl⟩
  · exact ⟨.rdmask, .inr (.inr (.inl rfl)), rfl, rfl⟩
  · exact ⟨.rdhbit, .inr (.inr (.inr (.inl rfl))), rfl, rfl⟩
  · exact ⟨.rddegr, .inr (.inr (.inr (.inr rfl))), rfl, rfl⟩

theorem decode_accessor_word {op : BitVec 4} (h8 : 8 ≤ op.toNat) (h12 : op.toNat ≤ 12) :
    ∃ i, IsAccessor i ∧ decode (op ++ 0#32) = .ok i := by
  obtain ⟨i, hi, hop, harg⟩ := exists_accessor_of_opcode h8 h12
  exact ⟨i, hi, decode_of_fields (hop.trans (wordOp_append _ _).symm) (harg.trans (wordArg_append _ _).symm)⟩

/-- An accessor's operand field is reserved whole (R75). -/
theorem decode_accessor_word_of_operand {op : BitVec 4} (h8 : 8 ≤ op.toNat) (h12 : op.toNat ≤ 12) {arg : Word}
    (harg : arg ≠ 0#32) : (decode (op ++ arg)).toOption = none :=
  (decode_append_eq_none_iff op arg).2 (.inr (.inl ⟨by bv_omega, harg⟩))

/-! ### What later responses depend on -/

theorem sameFields_of_endPulse_eq {s t : State} (h : endPulse t = endPulse s) : SameFields s t := by
  obtain ⟨hstate, hpoly, hmask, hdegree, hhigh, hfault, -, -⟩ := State.mk.inj h
  exact ⟨hstate, hpoly, hmask, hdegree, hhigh, hfault⟩

/-- Two blocks that differ at most in the response port answer alike from there on. -/
theorem responses_eq_of_endPulse_eq {s t : State} (h : endPulse t = endPulse s) (is : List Instr) :
    (runAll is t).map Prod.fst = (runAll is s).map Prod.fst := by
  cases is with
  | nil => rfl
  | cons i is =>
    have hexec : exec i t = exec i s := by rw [← exec_endPulse i t, h, exec_endPulse]
    simp only [runAll, hexec]

/-- Accessors in a row complete and change at most the response port. -/
theorem runAll_accessors {reads : List Instr} (hreads : ∀ i ∈ reads, IsAccessor i) {s : State} (hf : s.fault = 0#3) :
    ∃ rs t, runAll reads s = some (rs, t) ∧ endPulse t = endPulse s := by
  induction reads generalizing s with
  | nil => exact ⟨[], s, rfl, rfl⟩
  | cons i reads ih =>
    obtain ⟨hi, hreads⟩ := List.forall_mem_cons.1 hreads
    obtain ⟨r, hexec⟩ := exec_accessor hi hf
    obtain ⟨rs, t, hrun, ht⟩ := ih hreads (s := answer r s) hf
    exact ⟨r :: rs, t, by rw [runAll_cons hexec rfl, hrun]; rfl, ht⟩

/-- The five accessors in a row answer the five fields of one block. -/
theorem runAll_each_accessor {s : State} (hf : s.fault = 0#3) :
    runAll [.rdstate, .rdpoly, .rdmask, .rdhbit, .rddegr] s =
      some ([s.state, s.poly, s.mask, s.highBit, degreeResponse s.degree], answer (degreeResponse s.degree) s) := by
  simp only [runAll, exec_answer, exec_rdstate hf, exec_rdpoly hf, exec_rdmask hf, exec_rdhbit hf, exec_rddegr hf,
    nextOf, answer_rsp, Option.map_some]

/-! ### The fields as numbers -/

@[simp] theorem toNat_degreeResponse (d : BitVec 6) : (degreeResponse d).toNat = d.toNat :=
  BitVec.toNat_setWidth_of_le (by decide)

theorem state_toNat_lt_of_inv {s : State} (h : FieldsInv s) : s.state.toNat < 2 ^ s.degree.toNat :=
  Nat.lt_pow_two_of_testBit _ fun _ => state_bits_of_inv h

section Configured

variable {s : State} (h : FieldsInv s) (hp : s.poly ≠ 0#32)
include h hp

theorem mask_toNat_of_inv : s.mask.toNat = 2 ^ s.degree.toNat - 1 := by
  rw [mask_eq_of_inv h hp, toNat_ones (degree_le_of_inv h)]

theorem highBit_toNat_of_inv : s.highBit.toNat = 2 ^ (s.degree.toNat - 1) := by
  have hle := degree_le_of_inv h
  have hpos := degree_pos_of_inv h hp
  rw [highBit_eq_of_inv h hp, ← BitVec.twoPow_eq, BitVec.toNat_twoPow_of_lt (by omega)]

/-- The polynomial's number is between the powers of two on either side of its top bit (R24). -/
theorem poly_toNat_bounds_of_inv : 2 ^ (s.degree.toNat - 1) ≤ s.poly.toNat ∧ s.poly.toNat < 2 ^ s.degree.toNat := by
  obtain ⟨-, hdegree, -⟩ := configured_of_inv h hp
  obtain ⟨n, hn⟩ := Nat.exists_eq_add_one.2 (degree_pos_of_inv h hp)
  rw [hn, Nat.add_sub_cancel, ← bitlen_eq_succ_iff, ← hdegree, hn]

end Configured

/-! ### The configuration along a sequence -/

theorem SameConfiguration.trans {s t u : State} (hst : SameConfiguration s t) (htu : SameConfiguration t u) :
    SameConfiguration s u := by
  obtain ⟨hpoly, hmask, hdegree, hhigh⟩ := hst
  obtain ⟨hpoly', hmask', hdegree', hhigh'⟩ := htu
  exact ⟨hpoly'.trans hpoly, hmask'.trans hmask, hdegree'.trans hdegree, hhigh'.trans hhigh⟩

/-- A sequence that completes leaves the block running: each of its commands gave a response, so none faulted. -/
theorem runAll_running {is : List Instr} {s u : State} {rs : List Word} (hf : s.fault = 0#3)
    (h : runAll is s = some (rs, u)) : u.fault = 0#3 := by
  induction is generalizing s rs with
  | nil => cases h; exact hf
  | cons i is ih =>
    obtain ⟨t, v, vs, hexec, hrsp, hrun, -⟩ := runAll_cons_some h
    exact ih ((exec_rsp_isSome_iff hexec).1 (Option.isSome_of_eq_some hrsp)) hrun

/-- A sequence without SETPOLY keeps the configuration fields. -/
theorem runAll_sameConfiguration {is : List Instr} (his : ∀ i ∈ is, ∀ q, i ≠ .setpoly q) {s u : State}
    {rs : List Word} (h : runAll is s = some (rs, u)) : SameConfiguration s u := by
  induction is generalizing s rs with
  | nil => cases h; exact .refl _
  | cons i is ih =>
    obtain ⟨hi, his⟩ := List.forall_mem_cons.1 his
    obtain ⟨t, v, vs, hexec, -, hrun, -⟩ := runAll_cons_some h
    exact (exec_sameConfiguration hexec hi).trans (ih his hrun)

end Sys2Proof.Machine

open Sys2Proof Sys2Proof.Machine

/-- Settles O44: the accessors answer the fields, whose numbers R32 gives, and no command but SETPOLY writes `poly`. -/
theorem accessorValues : Obligations.AccessorValues := by
  refine ⟨fun s hs h => ⟨fun hp => ?_, fun hp => ?_⟩, fun s u p is rs hs hp his hrun => ?_⟩
  · obtain ⟨-, hmask, hdegree, hhigh, hstate⟩ := h.resolve_right fun hc => hc.1 hp
    have hrun := runAll_each_accessor hs
    rw [hstate, hp, hmask, hhigh, hdegree] at hrun
    exact hrun
  · obtain ⟨hlow, hhigh⟩ := poly_toNat_bounds_of_inv h hp
    refine ⟨_, _, _, _, _, _, runAll_each_accessor hs, hp, ?_⟩
    rw [toNat_degreeResponse]
    exact ⟨degree_pos_of_inv h hp, degree_le_of_inv h, mask_toNat_of_inv h hp, highBit_toNat_of_inv h hp,
      state_toNat_lt_of_inv h, hhigh, hlow⟩
  · obtain ⟨t, v, vs, hset, -, hrest, -⟩ := runAll_cons_some hrun
    obtain ⟨-, rfl⟩ | ⟨hp0, -⟩ := exec_setpoly_next hset
    · obtain ⟨hpoly : u.poly = p, -⟩ := runAll_sameConfiguration his hrest
      exact hpoly ▸ exec_rdpoly (runAll_running hs hrun)
    · exact absurd hp0 hp

/-- Settles O45: with a zero operand field an accessor's word decodes to the accessor, with any other to nothing; and
what accessors leave differs at most in the response port. -/
theorem accessorsCommon : Obligations.AccessorsCommon := by
  refine ⟨fun s op arg hs h8 h12 => ?_, fun s op arg hs _ _ => presentWord_of_faulted hs _,
    fun s reads is hs hreads => ?_⟩
  · by_cases harg : arg = 0#32
    · subst harg
      obtain ⟨i, hi, hdecode⟩ := decode_accessor_word h8 h12
      obtain ⟨r, hexec⟩ := exec_accessor hi hs
      exact ⟨_, (acceptWord_of_decode hdecode s).trans hexec, .inl ⟨rfl, exec_accessor_sameFields hi hexec, rfl⟩⟩
    · exact ⟨_, acceptWord_of_toOption_none hs (decode_accessor_word_of_operand h8 h12 harg), .inr ⟨harg, rfl⟩⟩
  · obtain ⟨rs, t, hrun, ht⟩ := runAll_accessors hreads hs
    exact ⟨rs, t, hrun, sameFields_of_endPulse_eq ht, responses_eq_of_endPulse_eq ht is⟩

/-- Settles O43. -/
theorem accessorsAnswerFields : Obligations.AccessorsAnswerFields := fun s hs =>
  ⟨exec_rdstate hs, exec_rdpoly hs, exec_rdmask hs, exec_rdhbit hs, degreeResponse_eq_ofNat s.degree ▸ exec_rddegr hs⟩
end

section
/-! Every step keeps the structural invariant of R32 (R193): no command but SETPOLY and reset touches the configuration
fields, so all that needs an argument is that the register stays within the degree. -/

namespace Sys2Proof.Machine

/-- With the configuration fields unchanged, R32 asks only that the register stays within the degree; at degree 0 that
makes it 0. -/
theorem inv_of_sameConfiguration {s t : State} (h : FieldsInv s) (hst : SameConfiguration s t)
    (hbits : ∀ j, s.degree.toNat ≤ j → t.state.getLsbD j = false) : FieldsInv t := by
  have hd := degree_le_of_inv h
  obtain ⟨tpoly, tmask, tdegree, thigh⟩ := hst
  obtain ⟨hpoly, hmask, hdegree, hhigh, -⟩ | ⟨hpoly, hdegree, hmask, hhigh, htop, hwithin, -⟩ := h
  · have hzero : t.state = 0#32 := BitVec.zero_iff_eq_false.2 fun j => hbits j (by simp [hdegree])
    exact .inl ⟨tpoly.trans hpoly, tmask.trans hmask, tdegree.trans hdegree, thigh.trans hhigh, hzero⟩
  · have hstate : t.state &&& s.mask = t.state := hmask ▸ (and_ones_eq_iff hd t.state).2 hbits
    simp only [FieldsInv, ConfiguredFields, tpoly, tmask, tdegree, thigh]
    exact .inr ⟨hpoly, hdegree, hmask, hhigh, htop, hwithin, hstate⟩

/-- What is masked lies within the degree, on a block of either line of R32. -/
theorem and_mask_bits_of_inv {s : State} (h : FieldsInv s) (v : Word) :
    ∀ j, s.degree.toNat ≤ j → (v &&& s.mask).getLsbD j = false := by
  have hmask : s.mask = ones s.degree.toNat := by
    obtain ⟨-, hmask, hdegree, -⟩ | ⟨-, -, hmask, -⟩ := h
    · rw [hmask, hdegree]; rfl
    · exact hmask
  intro j hj
  rw [hmask, BitVec.getLsbD_and, getLsbD_ones (degree_le_of_inv h), decide_eq_false hj.not_gt, Bool.and_false]

/-- No command but SETPOLY moves the register out of the degree. -/
theorem exec_state_bits {i : Instr} {s t : State} (h : FieldsInv s) (hi : ∀ p, i ≠ .setpoly p)
    (hexec : exec i s = .next t) : ∀ j, s.degree.toNat ≤ j → t.state.getLsbD j = false := by
  have hstate : ∀ j, s.degree.toNat ≤ j → s.state.getLsbD j = false := fun _ => state_bits_of_inv h
  have hpoly : ∀ j, s.degree.toNat ≤ j → s.poly.getLsbD j = false := fun _ => poly_bits_of_inv h
  have read : ∀ {r : Word}, whenRunning s (respond r s) = .next t →
      ∀ j, s.degree.toNat ≤ j → t.state.getLsbD j = false := fun hk => by
    rw [respond_next (whenRunning_next hk).2]
    exact hstate
  have write : ∀ {r v : Word}, (∀ j, s.degree.toNat ≤ j → v.getLsbD j = false) →
      whenRunning s (whenConfigured s (respond r (loadState v s))) = .next t →
      ∀ j, s.degree.toNat ≤ j → t.state.getLsbD j = false := fun hv hk => by
    obtain ⟨-, hk⟩ | ⟨-, rfl⟩ := whenConfigured_next (whenRunning_next hk).2
    · rw [respond_next hk]; exact hv
    · exact hstate
  cases i with
  | setpoly p => exact absurd rfl (hi p)
  | setstate v =>
    obtain ⟨-, hk⟩ | ⟨-, rfl⟩ := whenConfigured_next (whenRunning_next hexec).2
    · split at hk
      · rw [raiseFault_next hk]; exact hstate
      · rw [respond_next hk]; exact and_mask_bits_of_inv h v
    · exact hstate
  | step => exact write (fun _ => stepWord_bits_of_inv h) hexec
  | syncf x => exact write (syncfLoop_bits x hpoly hstate _) hexec
  | syncb x => exact write (and_mask_bits_of_inv h _) hexec
  | crcin b => exact write (fun _ => shiftXor_bits hpoly hstate _) hexec
  | crcout =>
    -- the bare shift is the engine without feedback
    exact write (fun _ => shiftXor_bits hpoly hstate false) hexec
  | rdstate => exact read hexec
  | rdpoly => exact read hexec
  | rdmask => exact read hexec
  | rdhbit => exact read hexec
  | rddegr => exact read hexec

/-- Every command keeps R32, whether it completes or faults. -/
theorem exec_inv {i : Instr} {s t : State} (h : FieldsInv s) (hexec : exec i s = .next t) : FieldsInv t := by
  by_cases hset : ∃ p, i = .setpoly p
  · obtain ⟨p, rfl⟩ := hset
    obtain ⟨hp, rfl⟩ | ⟨-, rfl⟩ := exec_setpoly_next hexec
    · exact .inr (inv_loadPoly hp s)
    · exact h
  · have hi : ∀ p, i ≠ .setpoly p := fun p hp => hset ⟨p, hp⟩
    exact inv_of_sameConfiguration h (exec_sameConfiguration hexec hi) (exec_state_bits h hi hexec)

/-- A command leaves 0 or a code of R220 in the fault field. -/
theorem exec_faultCodeKnown {i : Instr} {s t : State} (hk : FaultCodeKnown s) (hexec : exec i s = .next t) :
    FaultCodeKnown t := by
  obtain ⟨-, ⟨c, rfl⟩ | ⟨v, u, hu, rfl⟩⟩ := exec_next_cases hexec
  · exact causeCode_le c
  · rwa [FaultCodeKnown, answer_fault, hu.fault_eq]

end Sys2Proof.Machine

open Sys2Proof Sys2Proof.Machine

/-- Settles O11, by what a step can do: reset establishes the invariant, an accepted command keeps it, and in every
other step the six fields stay or only the fault code is latched. -/
theorem stepKeepsInvariant : Obligations.StepKeepsInvariant := by
  intro s t h hk hstep
  obtain ⟨-, rfl⟩ | ⟨rest, -, rfl⟩ | ⟨w, rest, -, -, rfl⟩ | ⟨w, rest, -, -, hw⟩ := step_next_cases hstep
  · exact ⟨h, hk⟩
  · exact ⟨inv_reset, by simp⟩
  · exact ⟨h, hk⟩
  · have h' : FieldsInv (withHost rest s) := h
    have hk' : FaultCodeKnown (withHost rest s) := hk
    obtain ⟨i, -, hexec⟩ | ⟨e, -, -, rfl⟩ := acceptWord_next_cases hw
    · exact ⟨exec_inv h' hexec, exec_faultCodeKnown hk' hexec⟩
    · exact ⟨h, causeCode_le _⟩
end

section
/-! The one addition of the block (R192). -/

namespace Sys2Proof.Machine

/-- The halved mask is below 2^31, so adding 1 does not wrap. -/
theorem toNat_topBit (m : Word) : (topBit m).toNat = (m >>> 1).toNat + 1 := by
  rw [topBit]
  bv_omega

theorem bitlen_ones {d : Nat} (hpos : 1 ≤ d) (hd : d ≤ 32) : bitlen (ones d) = d := by
  obtain ⟨n, rfl⟩ := Nat.exists_eq_add_one.2 hpos
  have hpow : 1 ≤ 2 ^ n := Nat.one_le_two_pow
  rw [bitlen_eq_succ_iff, toNat_ones hd, Nat.pow_succ]
  omega

/-- `ones d` is the mask of a polynomial of degree `d`, itself for one, and its `highBit` is known. -/
theorem topBit_ones {d : Nat} (hpos : 1 ≤ d) (hd : d ≤ 32) : topBit (ones d) = 1#32 <<< (d - 1) := by
  have htop := topBit_ones_bitlen (ones_ne_zero hpos hd)
  rwa [bitlen_ones hpos hd] at htop

end Sys2Proof.Machine

open Sys2Proof Sys2Proof.Machine

/-- Settles O18: a word shifted right by one leaves room for the addition, and the mask of degree `d` becomes the single
bit below `2^d`. -/
theorem highBitFormula : Obligations.HighBitFormula := by
  refine ⟨fun m => ?_, fun d hpos hd => ⟨toNat_ones hd, topBit_ones hpos hd⟩, by decide,
    fun s t p hexec ht => ?_⟩
  · have hhalf : (m >>> 1).toNat ≤ 0x7FFFFFFF := by bv_omega
    have hsum : ((m >>> 1) + 1#32).toNat = (m >>> 1).toNat + 1 := toNat_topBit m
    exact ⟨hhalf, hsum, hsum.trans_le (Nat.succ_le_succ hhalf)⟩
  · obtain ⟨-, rfl⟩ | ⟨-, rfl⟩ := exec_setpoly_next hexec
    · rfl
    · exact absurd ht (causeCode_ne_zero .invalidPolynomial)
end

section
/-! Linearity over GF(2) (R194): the engine takes the XOR of two inputs to the XOR of their results, jointly in the
deciding bit and the register, and with it every update built from the engine. -/

namespace Sys2Proof.Machine

theorem bool_xor_xor_xor_comm (a b c d : Bool) : ((a ^^ b) ^^ (c ^^ d)) = ((a ^^ c) ^^ (b ^^ d)) := by
  rw [Bool.xor_assoc, Bool.xor_left_comm b, ← Bool.xor_assoc]

/-- One position of the engine is linear in the deciding bit and the register. -/
theorem shiftXor_xor_xor (poly v w : Word) (b c : Bool) :
    shiftXor poly (b ^^ c) (v ^^^ w) = shiftXor poly b v ^^^ shiftXor poly c w := by
  apply BitVec.eq_of_getLsbD_eq
  intro j _
  simp only [BitVec.getLsbD_xor, getLsbD_shiftXor, Bool.and_xor_distrib_right]
  exact bool_xor_xor_xor_comm _ _ _ _

theorem stepWord_xor (poly v w : Word) : stepWord poly (v ^^^ w) = stepWord poly v ^^^ stepWord poly w := by
  rw [stepWord, BitVec.getLsbD_xor, shiftXor_xor_xor, stepWord, stepWord]

theorem crcinWord_xor (poly v w : Word) (b c : Bool) :
    crcinWord poly (v ^^^ w) (b ^^ c) = crcinWord poly v b ^^^ crcinWord poly w c := by
  rw [crcinWord, BitVec.getLsbD_xor, bool_xor_xor_xor_comm, shiftXor_xor_xor, crcinWord, crcinWord]

theorem syncfLoop_xor (poly x y v w : Word) (n : Nat) :
    syncfLoop poly (x ^^^ y) (v ^^^ w) n = syncfLoop poly x v n ^^^ syncfLoop poly y w n := by
  induction n with
  | zero => rfl
  | succ n ih => rw [syncfLoop_succ, ih, BitVec.getLsbD_xor, shiftXor_xor_xor, syncfLoop_succ, syncfLoop_succ]

/-- The conditional XOR of SYNCB is linear in the deciding bit and the register. -/
theorem ite_xor_poly_xor (poly v w : Word) (b c : Bool) :
    (if b ^^ c then (v ^^^ w) ^^^ poly else v ^^^ w) =
      (if b then v ^^^ poly else v) ^^^ (if c then w ^^^ poly else w) := by
  apply BitVec.eq_of_getLsbD_eq
  intro j _
  cases b <;> cases c <;> simp [Bool.xor_comm, Bool.xor_left_comm]

theorem syncbBits_xor (poly x y v w : Word) (n : Nat) :
    syncbBits poly (x ^^^ y) n (v ^^^ w) = syncbBits poly x n v ^^^ syncbBits poly y n w := by
  induction n generalizing v w with
  | zero => rfl
  | succ n ih =>
    rw [syncbBits_succ, BitVec.getLsbD_xor, ite_xor_poly_xor, BitVec.shiftLeft_xor_distrib, ih, syncbBits_succ,
      syncbBits_succ]

/-- SYNCB is linear in its operand: its loop starts from 0. -/
theorem syncbResult_xor (s : State) (x y : Word) : syncbResult s (x ^^^ y) = syncbResult s x ^^^ syncbResult s y := by
  have hloop := syncbBits_xor s.poly x y 0#32 0#32 s.degree.toNat
  rw [BitVec.xor_self] at hloop
  apply BitVec.eq_of_getLsbD_eq
  intro j _
  simp only [syncbResult, hloop, BitVec.getLsbD_and, BitVec.getLsbD_xor, ← Bool.and_xor_distrib_right]
  rw [bool_xor_xor_xor_comm]

end Sys2Proof.Machine

open Sys2Proof Sys2Proof.Machine

/-- Settles O23: each command writes a linear map of the register it finds and of its operand. -/
theorem updatesAreLinear : Obligations.UpdatesAreLinear := by
  intro s a b x y m n ⟨hf, hp⟩ h
  have hsyncb : ∀ v w : Word,
      exec (.syncb w) (loadState v s) = .next (answer voidResponse (loadState (syncbResult s w) s)) :=
    fun v w => (exec_syncb_loadState hf hp w v).trans (exec_syncb_of_inv h hp hf w)
  exact ⟨
    ⟨_, _, _, exec_step (s := loadState a s) hf hp, exec_step (s := loadState b s) hf hp,
      exec_step (s := loadState (a ^^^ b) s) hf hp, stepWord_xor s.poly a b⟩,
    ⟨_, exec_step_of_eq (s := loadState 0#32 s) hf hp rfl (stepWord_zero s.poly) rfl, rfl⟩,
    ⟨_, _, _, exec_crcout (s := loadState a s) hf hp, exec_crcout (s := loadState b s) hf hp,
      exec_crcout (s := loadState (a ^^^ b) s) hf hp, BitVec.ushiftRight_xor_distrib a b 1⟩,
    ⟨_, _, _, exec_crcin (s := loadState a s) hf hp m, exec_crcin (s := loadState b s) hf hp n,
      exec_crcin (s := loadState (a ^^^ b) s) hf hp (m ^^ n), crcinWord_xor s.poly a b m n⟩,
    ⟨_, _, _, exec_syncf (s := loadState a s) hf hp x, exec_syncf (s := loadState b s) hf hp y,
      exec_syncf (s := loadState (a ^^^ b) s) hf hp (x ^^^ y), syncfLoop_xor s.poly x y a b _⟩,
    ⟨_, _, _, hsyncb a x, hsyncb b y, hsyncb (a ^^^ b) (x ^^^ y), syncbResult_xor s x y⟩⟩
end

section
/-! The polynomial reading of the step (R196): a register is the polynomial of its bits, and STEP divides it by `x`
modulo `1 + x * poly(x)`. -/

namespace Sys2Proof

open Polynomial

theorem coeff_gf2Poly (v : Word) (j : Nat) : (gf2Poly v).coeff j = if v.getLsbD j then 1 else 0 := by
  have hterm : ∀ i, (if v.getLsbD i then (X : (ZMod 2)[X]) ^ i else 0).coeff j =
      if j = i then (if v.getLsbD j then 1 else 0) else 0 := by
    intro i
    by_cases hij : j = i
    · subst hij
      cases v.getLsbD j <;> simp
    · cases v.getLsbD i <;> simp [coeff_X_pow, hij]
  rw [gf2Poly, finsetSum_coeff, Finset.sum_congr rfl fun i _ => hterm i, Finset.sum_ite_eq]
  by_cases hj : j < 32
  · rw [if_pos (Finset.mem_range.2 hj)]
  · rw [if_neg (by simpa using hj), BitVec.getLsbD_of_ge v j (by omega), if_neg Bool.false_ne_true]

/-- XOR of words is addition of polynomials. -/
theorem gf2Poly_xor (v w : Word) : gf2Poly (v ^^^ w) = gf2Poly v + gf2Poly w := by
  ext j
  rw [coeff_add, coeff_gf2Poly, coeff_gf2Poly, coeff_gf2Poly, BitVec.getLsbD_xor]
  cases v.getLsbD j <;> cases w.getLsbD j <;> decide

/-- Bit 0 is the constant coefficient, and the shift right is the quotient by `x`. -/
theorem gf2Poly_eq_bit_add (v : Word) :
    gf2Poly v = (if v.getLsbD 0 then 1 else 0 : (ZMod 2)[X]) + X * gf2Poly (v >>> 1) := by
  ext j
  cases j with
  | zero =>
    rw [coeff_add, mul_coeff_zero, coeff_X_zero, zero_mul, add_zero, coeff_gf2Poly, apply_ite (coeff · 0),
      coeff_one_zero, coeff_zero]
  | succ j =>
    have hbit : (if v.getLsbD 0 then (1 : (ZMod 2)[X]) else 0).coeff (j + 1) = 0 := by
      cases v.getLsbD 0 <;> simp [coeff_one]
    rw [coeff_add, hbit, zero_add, coeff_X_mul, coeff_gf2Poly, coeff_gf2Poly, BitVec.getLsbD_ushiftRight,
      Nat.add_comm 1 j]

/-- `x` times the stepped register differs from the register by `1 + x * poly(x)` when bit 0 leaves as 1, and by
nothing when it leaves as 0. -/
theorem gf2Poly_add_X_mul_stepWord (poly v : Word) :
    gf2Poly v + X * gf2Poly (Machine.stepWord poly v) = if v.getLsbD 0 then 1 + X * gf2Poly poly else 0 := by
  cases hbit : v.getLsbD 0 with
  | true =>
    have hv := gf2Poly_eq_bit_add v
    rw [hbit, if_pos rfl] at hv
    rw [Machine.stepWord_of_bit_true poly hbit, gf2Poly_xor, hv, if_pos rfl, mul_add, add_assoc,
      ← add_assoc (X * gf2Poly (v >>> 1)), CharTwo.add_self_eq_zero, zero_add]
  | false =>
    have hv := gf2Poly_eq_bit_add v
    rw [hbit, if_neg Bool.false_ne_true, zero_add] at hv
    rw [Machine.stepWord_of_bit_false poly hbit, ← hv, CharTwo.add_self_eq_zero, if_neg Bool.false_ne_true]

end Sys2Proof

open Sys2Proof Sys2Proof.Machine

/-- Settles O22: the response is the bit that leaves. -/
theorem stepDividesByX : Obligations.StepDividesByX := by
  intro s ⟨hf, hp⟩
  refine ⟨_, exec_step hf hp, ?_⟩
  have hrsp : some (bitResponse (s.state.getLsbD 0)) = some 1#32 ↔ s.state.getLsbD 0 = true := by
    rw [Option.some_inj, ← bitResponse_true, bitResponse_injective.eq_iff]
  rw [answer_state, loadState_state, gf2Poly_add_X_mul_stepWord, answer_rsp]
  simp only [hrsp]
end

section
/-! STEP, SYNCF and SYNCB as bijections on the values within the mask (R195, R199, R201): each is linear and takes only
0 to 0, so it is one-to-one, and on a finite set that makes it onto. -/

namespace Sys2Proof.Machine

/-- `n` steps are the `n`-th iterate of the step map. -/
theorem stepTimes_eq_iterate (poly v : Word) (n : Nat) : stepTimes poly n v = (stepWord poly)^[n] v := by
  induction n generalizing v with
  | zero => rfl
  | succ n ih => exact ih (stepWord poly v)

/-! ### Linear maps on the values within a mask -/

/-- The register values within a mask. -/
def within (m : Word) : Set Word := {v | v &&& m = v}

theorem xor_mem_within {m v w : Word} (hv : v ∈ within m) (hw : w ∈ within m) : v ^^^ w ∈ within m := by
  apply BitVec.eq_of_getLsbD_eq
  intro j _
  have hvj := congrArg (·.getLsbD j) hv
  have hwj := congrArg (·.getLsbD j) hw
  simp only [BitVec.getLsbD_and] at hvj hwj
  rw [BitVec.getLsbD_and, BitVec.getLsbD_xor, Bool.and_xor_distrib_right, hvj, hwj]

/-- A linear map of the values within a mask to themselves that takes only 0 to 0 is a bijection. -/
theorem bijOn_within {m : Word} {f : Word → Word} (hmaps : Set.MapsTo f (within m) (within m))
    (hxor : ∀ v w, f (v ^^^ w) = f v ^^^ f w) (hzero : ∀ v ∈ within m, f v = 0#32 → v &&& m = 0#32) :
    Set.BijOn f (within m) (within m) := by
  refine ((within m).toFinite.injOn_iff_bijOn_of_mapsTo hmaps).1 fun v hv w hw hvw => ?_
  have hdiff : v ^^^ w ∈ within m := xor_mem_within hv hw
  have himage : f (v ^^^ w) = 0#32 := by rw [hxor, hvw, BitVec.xor_self]
  exact BitVec.xor_eq_zero_iff.1 (hdiff.symm.trans (hzero _ hdiff himage))

section Invariant

variable {s : State} (h : FieldsInv s) (hp : s.poly ≠ 0#32)
include h hp

theorem mem_within_mask_iff (v : Word) :
    v ∈ within s.mask ↔ ∀ j, s.degree.toNat ≤ j → v.getLsbD j = false := by
  rw [mask_eq_of_inv h hp]
  exact and_ones_eq_iff (degree_le_of_inv h) v

theorem state_mem_within : s.state ∈ within s.mask := (mem_within_mask_iff h hp _).2 fun _ => state_bits_of_inv h

theorem and_mask_eq_zero_iff (x : Word) :
    x &&& s.mask = 0#32 ↔ ∀ j, j < s.degree.toNat → x.getLsbD j = false := by
  rw [mask_eq_of_inv h hp]
  exact and_ones_eq_zero_iff (degree_le_of_inv h) x

/-! ### STEP -/

theorem bijOn_stepWord : Set.BijOn (stepWord s.poly) (within s.mask) (within s.mask) := by
  refine bijOn_within (fun v hv => ?_) (stepWord_xor s.poly) fun v hv hzero => ?_
  · have hv' := inv_loadState h hp ((mem_within_mask_iff h hp v).1 hv)
    exact stepWord_and_mask_of_inv hv' hp
  · have htop : v.getLsbD s.degree.toNat = false := (mem_within_mask_iff h hp v).1 hv _ le_rfl
    exact hv.trans ((stepWord_eq_zero_iff (degree_pos_of_inv h hp) (top_bit_of_inv h hp) htop).1 hzero)

/-- Every register value comes back to itself under the step map: an injection of a finite set permutes it. -/
theorem exists_stepTimes_eq_state : ∃ n, 0 < n ∧ stepTimes s.poly n s.state = s.state := by
  have hbij := bijOn_stepWord h hp
  have hinj := (Set.MapsTo.restrict_inj hbij.mapsTo).2 hbij.injOn
  obtain ⟨n, hn, hperiod⟩ := hinj.mem_periodicPts ⟨s.state, state_mem_within h hp⟩
  have hiterate := congrArg Subtype.val hperiod
  rw [Set.MapsTo.coe_iterate_restrict] at hiterate
  exact ⟨n, hn, (stepTimes_eq_iterate _ _ _).trans hiterate⟩

/-! ### SYNCF and SYNCB -/

theorem syncfLoop_mem_within (x : Word) : syncfLoop s.poly x s.state s.degree.toNat ∈ within s.mask :=
  (mem_within_mask_iff h hp _).2 (syncfLoop_bits x (fun _ => poly_bits_of_inv h) (fun _ => state_bits_of_inv h) _)

theorem syncfLoop_eq_zero_iff_masked (x : Word) :
    syncfLoop s.poly x s.state s.degree.toNat = 0#32 ↔ x &&& s.mask = 0#32 :=
  (syncfLoop_eq_zero_iff h hp x).trans (and_mask_eq_zero_iff h hp x).symm

/-- The old register is shifted out, so what SYNCF leaves is a linear map of the operand alone. -/
theorem bijOn_syncfLoop :
    Set.BijOn (fun x => syncfLoop s.poly x s.state s.degree.toNat) (within s.mask) (within s.mask) := by
  refine bijOn_within (fun x _ => syncfLoop_mem_within h hp x) (fun x y => ?_)
    fun x _ => (syncfLoop_eq_zero_iff_masked h hp x).1
  simp only [syncfLoop_degree_eq h, ← syncfLoop_xor, BitVec.xor_self]

theorem syncbResult_mem_within (x : Word) : syncbResult s x ∈ within s.mask :=
  (mem_within_mask_iff h hp _).2 (syncbResult_bits h hp x)

theorem syncbResult_eq_zero_iff (x : Word) : syncbResult s x = 0#32 ↔ x &&& s.mask = 0#32 := by
  rw [and_mask_eq_zero_iff h hp, ← syncb_eq_zero_iff h hp, syncbLoop_of_inv h hp, syncbResult]

theorem bijOn_syncbResult : Set.BijOn (syncbResult s) (within s.mask) (within s.mask) :=
  bijOn_within (fun x _ => syncbResult_mem_within h hp x) (syncbResult_xor s)
    fun x _ => (syncbResult_eq_zero_iff h hp x).1

end Invariant

/-- The register value a command wrote is determined by the state it left. -/
theorem eq_of_exec_loadState {i : Instr} {r v w : Word} {s : State} (hv : exec i s = .next (answer r (loadState v s)))
    (hw : exec i s = .next (answer r (loadState w s))) : v = w :=
  congrArg State.state (Host.Outcome.next.inj (hv.symm.trans hw))

/-- A command that writes a bijection of its operand leaves every register value for exactly one operand. -/
theorem existsUnique_operand {i : Word → Instr} {f : Word → Word} {s : State}
    (hexec : ∀ x, exec (i x) s = .next (answer voidResponse (loadState (f x) s)))
    (hf : Set.BijOn f (within s.mask) (within s.mask)) {v : Word} (hv : v ∈ within s.mask) :
    ∃! x : Word, x &&& s.mask = x ∧ exec (i x) s = .next (answer voidResponse (loadState v s)) := by
  obtain ⟨x, hx, rfl⟩ := hf.surjOn hv
  exact ⟨x, ⟨hx, hexec x⟩, fun y ⟨hy, hyexec⟩ => hf.injOn hy hx (eq_of_exec_loadState (hexec y) hyexec)⟩

/-! ### The inverse of STEP -/

theorem getLsbD_bitResponse (b : Bool) (j : Nat) : (bitResponse b).getLsbD j = (decide (j = 0) && b) := by
  cases b
  · rw [bitResponse_false, BitVec.getLsbD_zero, Bool.and_false]
  · rw [bitResponse_true, BitVec.getLsbD_one, Bool.and_true]
    simp

/-- Taking the feedback of the emitted bit back leaves the bare shift. -/
theorem stepWord_xor_feedback (poly v : Word) :
    stepWord poly v ^^^ (if v.getLsbD 0 then poly else 0#32) = v >>> 1 := by
  cases hbit : v.getLsbD 0 with
  | true => rw [stepWord_of_bit_true _ hbit, if_pos rfl, BitVec.xor_assoc, BitVec.xor_self, BitVec.xor_zero]
  | false => rw [stepWord_of_bit_false _ hbit, if_neg Bool.false_ne_true, BitVec.xor_zero]

/-- Shifting right and back drops bit 0 only. -/
theorem shift_back_or_bit_zero {m v : Word} (hv : v ∈ within m) :
    ((v >>> 1) <<< 1 &&& m) ||| bitResponse (v.getLsbD 0) = v := by
  apply BitVec.eq_of_getLsbD_eq
  intro j hj
  have hvj := congrArg (·.getLsbD j) hv
  simp only [BitVec.getLsbD_or, BitVec.getLsbD_and, BitVec.getLsbD_shiftLeft, BitVec.getLsbD_ushiftRight,
    getLsbD_bitResponse] at hvj ⊢
  cases j with
  | zero => simp
  | succ j => simpa [-BitVec.getLsbD_eq_getElem, hj, Nat.add_comm 1 j] using hvj

/-- R195's inverse of STEP. -/
theorem eq_of_stepWord {m poly v : Word} (hv : v ∈ within m) :
    v = (((stepWord poly v ^^^ (if v.getLsbD 0 then poly else 0#32)) <<< 1) &&& m) |||
      (if v.getLsbD 0 then 1#32 else 0#32) := by
  rw [stepWord_xor_feedback, ← bitResponse_eq_ite, shift_back_or_bit_zero hv]

end Sys2Proof.Machine

open Sys2Proof Sys2Proof.Machine

/-- Settles O24: the step map is a bijection on the values within the mask, and an injection of a finite set returns
every value to itself; the emitted bit, which the inverse needs, stands in the top position. -/
theorem stepIsBijection : Obligations.StepIsBijection := by
  intro s ⟨hf, hp⟩ h
  refine ⟨⟨_, exec_step hf hp, stepWord_and_mask_of_inv h hp, ?_, ?_⟩, fun v hv => ?_, ?_⟩
  · exact stepWord_eq_zero_iff (degree_pos_of_inv h hp) (top_bit_of_inv h hp) (state_bits_of_inv h le_rfl)
  · rw [answer_state, loadState_state, stepWord_top_bit_of_inv h hp]
    exact eq_of_stepWord (state_mem_within h hp)
  · obtain ⟨a, ha, hstep⟩ := (bijOn_stepWord h hp).surjOn hv
    exact ⟨a, _, ha, exec_step (s := loadState a s) hf hp, hstep⟩
  · obtain ⟨n, hn, hreturn⟩ := exists_stepTimes_eq_state h hp
    obtain ⟨rs, u, hrun, hu, -⟩ := runAll_replicate_step n hf hp
    exact ⟨n, rs, u, hn, hrun, hu.trans hreturn⟩

/-- Settles O28: as a map of its operand SYNCF is a bijection, whatever the old register. -/
theorem syncfIsBijection : Obligations.SyncfIsBijection := by
  intro s ⟨hf, hp⟩ h
  exact ⟨fun x => ⟨_, exec_syncf hf hp x, syncfLoop_mem_within h hp x, syncfLoop_eq_zero_iff_masked h hp x⟩,
    fun v hv => existsUnique_operand (exec_syncf hf hp) (bijOn_syncfLoop h hp) hv⟩

/-- Settles O34: the state SYNCB leaves also gives the operand back, as the bits emitted from it. -/
theorem syncbIsBijection : Obligations.SyncbIsBijection := by
  intro s ⟨hf, hp⟩ h
  have hexec := exec_syncb_of_inv h hp hf
  refine ⟨fun x => ⟨_, hexec x, syncbResult_mem_within h hp x, syncbResult_eq_zero_iff h hp x⟩,
    fun v hv => existsUnique_operand hexec (bijOn_syncbResult h hp) hv, fun x v hv => ?_⟩
  obtain rfl : syncbResult s x = v := eq_of_exec_loadState (hexec x) hv
  obtain ⟨u, hrun, -⟩ :=
    runAll_replicate_step_emitted s.degree.toNat (s := loadState (syncbResult s x) s) hf hp
  exact ⟨u, (emitted_eq_bitResponses_iff _ _ _ _).2 (emittedBit_syncbResult h hp x) ▸ hrun⟩
end

section
/-! The closed forms of SYNCF (R198), SYNCB (R200) and of a message fed to CRCIN (R202). Feeding bits to a linear map
and XORing one word in for each bit that is 1 is evaluated once, as in Horner's rule: for SYNCF the linear map is the
shift, for CRCIN the step map. -/

namespace Sys2Proof.Machine

/-! ### Feeding bits to a linear map -/

/-- The bit fed at `k` contributes `q` under the applications of `f` that follow it, and the start value is under all of
them. -/
theorem foldl_feed_eq {f : Word → Word} (hf : ∀ v w, f (v ^^^ w) = f v ^^^ f w) (q : Word) (bs : List Bool)
    (v : Word) :
    bs.foldl (fun v b => if b then f v ^^^ q else f v) v =
      (List.range bs.length).foldl (fun v k => if bs[k]? = some true then v ^^^ f^[bs.length - 1 - k] q else v)
        (f^[bs.length] v) := by
  induction bs generalizing v with
  | nil => rfl
  | cons b bs ih =>
    have hiterate : f^[bs.length] (f v ^^^ q) = f^[bs.length] (f v) ^^^ f^[bs.length] q :=
      Function.Semiconj₂.iterate hf bs.length (f v) q
    have hindex : ∀ k, bs.length + 1 - 1 - k.succ = bs.length - 1 - k := fun k => by omega
    rw [List.foldl_cons, ih, List.length_cons, List.range_succ_eq_map, List.foldl_cons, List.foldl_map]
    simp only [List.getElem?_cons_zero, List.getElem?_cons_succ, Option.some.injEq, hindex,
      Function.iterate_succ_apply]
    rw [Nat.add_sub_cancel, Nat.sub_zero]
    cases b with
    | true => rw [if_pos rfl, if_pos rfl, hiterate]
    | false => rfl

/-! ### SYNCF -/

theorem iterate_ushiftRight_one (v : Word) (n : Nat) : (fun v : Word => v >>> 1)^[n] v = v >>> n := by
  induction n with
  | zero => exact (BitVec.ushiftRight_zero v).symm
  | succ n ih => rw [Function.iterate_succ_apply', ih, BitVec.shiftRight_add]

theorem syncfLoop_eq_foldl_lowBits (poly x v : Word) (n : Nat) :
    syncfLoop poly x v n = (lowBits x n).foldl (fun v b => if b then v >>> 1 ^^^ poly else v >>> 1) v := by
  rw [syncfLoop_eq_foldl, lowBits, List.foldl_map]
  rfl

theorem getElem?_lowBits_eq_true_iff (x : Word) {n k : Nat} (hk : k < n) :
    (lowBits x n)[k]? = some true ↔ x.getLsbD k = true := by
  simp [lowBits, hk]

/-- R198, with the old register shifted out of the low `n` positions. -/
theorem syncfLoop_closed_form (poly x v : Word) (n : Nat) :
    syncfLoop poly x v n =
      (List.range n).foldl (fun v i => if x.getLsbD i then v ^^^ poly >>> (n - 1 - i) else v) (v >>> n) := by
  have hlength : (lowBits x n).length = n := by rw [lowBits, List.length_map, List.length_range]
  rw [syncfLoop_eq_foldl_lowBits, foldl_feed_eq (fun v w => BitVec.ushiftRight_xor_distrib v w 1), hlength]
  simp only [iterate_ushiftRight_one]
  refine List.foldl_ext _ _ _ fun w i hi => ?_
  simp only [getElem?_lowBits_eq_true_iff x (List.mem_range.1 hi)]

/-! ### SYNCB -/

/-- R200 for the loop: bit `k` of what it leaves is the sum of `x[i]` AND `poly[k-1-i]` over `i` below `k`, added here
to `b` one after the other. -/
theorem foldl_xor_eq_getLsbD_syncbBits (poly v : Word) {n : Nat} (hn : n ≤ 32) {k : Nat} (hk : k < n) (x : Word)
    (b : Bool) :
    (List.range k).foldl (fun b i => b ^^ (x.getLsbD i && poly.getLsbD (k - 1 - i))) b =
      (b ^^ (syncbBits poly x n v).getLsbD k) := by
  obtain ⟨n, rfl⟩ := Nat.exists_eq_add_one.2 (Nat.zero_lt_of_lt hk)
  induction k generalizing n x b with
  | zero => rw [getLsbD_zero_syncbBits_succ, Bool.xor_false]; rfl
  | succ k ih =>
    obtain ⟨m, rfl⟩ : ∃ m, n = m + 1 := Nat.exists_eq_add_one.2 (by omega)
    have hrest := ih (x >>> 1) (b ^^ (x.getLsbD 0 && poly.getLsbD k)) m (by omega) (by omega)
    have hindex : ∀ i, k + 1 - 1 - i.succ = k - 1 - i := fun i => by omega
    simp only [BitVec.getLsbD_ushiftRight, Nat.add_comm 1] at hrest
    rw [List.range_succ_eq_map, List.foldl_cons, List.foldl_map, getLsbD_succ_syncbBits_succ _ _ _ (by omega)]
    simp only [hindex, Nat.succ_eq_add_one]
    rw [Nat.add_sub_cancel, Nat.sub_zero, hrest, Bool.xor_assoc, Bool.xor_comm (x.getLsbD 0 && poly.getLsbD k)]

/-! ### CRCIN -/

/-- R202, the start state and the message apart. -/
theorem foldl_crcinWord_eq (poly v : Word) (ms : List Bool) :
    ms.foldl (crcinWord poly) v =
      (List.range ms.length).foldl
        (fun v k => if ms[k]? = some true then v ^^^ stepTimes poly (ms.length - 1 - k) poly else v)
        (stepTimes poly ms.length v) := by
  have hfeed : ∀ v b, crcinWord poly v b = if b then stepWord poly v ^^^ poly else stepWord poly v := by
    intro v b
    rw [crcinWord_eq_stepWord_xor]
    cases b with
    | true => rfl
    | false => exact BitVec.xor_zero
  simp only [stepTimes_eq_iterate]
  rw [← foldl_feed_eq (stepWord_xor poly)]
  exact List.foldl_ext _ _ _ fun w b _ => hfeed w b

end Sys2Proof.Machine

open Sys2Proof Sys2Proof.Machine

/-- Settles O27: SYNCF feeds the operand bits to the shift, and the old register is shifted out. -/
theorem syncfClosedForm : Obligations.SyncfClosedForm := by
  intro s x ⟨hf, hp⟩ h
  rw [exec_syncf hf hp, syncfLoop_closed_form, state_ushiftRight_degree h]
  rfl

/-- Settles O33: each operand bit adds the polynomial, shifted left past it, to what SYNCB's loop leaves. -/
theorem syncbClosedForm : Obligations.SyncbClosedForm := by
  intro s x ⟨hf, hp⟩ h
  refine ⟨_, exec_syncb_of_inv h hp hf x, fun k hk => ?_, syncbResult_bits h hp x⟩
  have hd := degree_le_of_inv h
  rw [foldl_xor_eq_getLsbD_syncbBits s.poly 0#32 hd hk, answer_state, loadState_state, syncbResult,
    mask_eq_of_inv h hp, BitVec.getLsbD_and, getLsbD_ones hd, decide_eq_true hk, Bool.and_true, BitVec.getLsbD_xor,
    Bool.xor_comm]

/-- Settles O38: CRCIN feeds the message to the step map. -/
theorem crcFeedLaw : Obligations.CrcFeedLaw := by
  intro s ms ⟨hf, hp⟩
  obtain ⟨u, hfeed, hustate, -⟩ := runAll_map_crcin ms hf hp
  obtain ⟨qs, t, hsteps, htstate, -⟩ := runAll_replicate_step ms.length hf hp
  exact ⟨_, u, hfeed, hustate.trans (foldl_crcinWord_eq s.poly s.state ms), qs, t, hsteps, htstate⟩
end

section
/-! The periods of G7 and G8 (R197, R123). A period below `n` of a value that returns after `n` steps would make the
value return after `n / q` steps for some prime `q` dividing `n`, so the few steps `n / q` are all there is to look at:
127 is a prime, and 255 = 3 * 5 * 17. -/

namespace Sys2Proof.Machine

/-! ### The criterion -/

/-- A point that returns after `n` steps, and after no `n / q` for a prime `q`, returns no earlier. -/
theorem not_isPeriodicPt_of_lt {α : Type*} {f : α → α} {x : α} {n : Nat} (hn : Function.IsPeriodicPt f n x)
    (hearly : ∀ q, q.Prime → q ∣ n → ¬ Function.IsPeriodicPt f (n / q) x) {m : Nat} (hm : 0 < m)
    (hmn : m < n) : ¬ Function.IsPeriodicPt f m x := by
  intro hperiod
  have hdvd : m.gcd n ∣ n := Nat.gcd_dvd_right m n
  have hlt : m.gcd n < n := (Nat.gcd_le_left n hm).trans_lt hmn
  have hne : n / m.gcd n ≠ 1 := fun hone => hlt.ne (Nat.eq_of_dvd_of_div_eq_one hdvd hone)
  obtain ⟨q, hq, hqdvd⟩ := Nat.exists_prime_and_dvd hne
  have hmul : m.gcd n * q ∣ n := Nat.mul_dvd_of_dvd_div hdvd hqdvd
  have hq_dvd : q ∣ n := (Nat.dvd_mul_left q _).trans hmul
  have hgcd : m.gcd n ∣ n / q := Nat.dvd_div_of_mul_dvd (Nat.mul_comm _ _ ▸ hmul)
  exact hearly q hq hq_dvd ((hperiod.gcd hn).trans_dvd hgcd)

/-- What has to be computed for a maximal length: that the period `n` is a return, and that no `n / q` is one. -/
theorem maximalLength_of_prime_divisors {p v : Word} {n : Nat} (hp : p ≠ 0#32) (hn : 2 ^ bitlen p - 1 = n)
    (hv : ones (bitlen p) = v) (hreturn : stepTimes p n v = v)
    (hearly : ∀ q, q.Prime → q ∣ n → stepTimes p (n / q) v ≠ v) : MaximalLength p := by
  subst hn hv
  simp only [stepTimes_eq_iterate] at hreturn hearly
  simp only [MaximalLength, stepTimes_eq_iterate]
  exact ⟨hp, hreturn, fun _ => not_isPeriodicPt_of_lt hreturn hearly⟩

/-- A polynomial of maximal length brings the block that SETPOLY left back after `2^d - 1` STEP commands. -/
theorem runAll_setpoly_period {p : Word} (h : MaximalLength p) {s : State} (hs : s.fault = 0#3) :
    ∃ t rs u, exec (.setpoly p) s = .next t ∧
      runAll (List.replicate (2 ^ bitlen p - 1) .step) t = some (rs, u) ∧ u.state = t.state := by
  obtain ⟨hp, hreturn, -⟩ := h
  obtain ⟨rs, u, hrun, hu, -⟩ :=
    runAll_replicate_step (2 ^ bitlen p - 1) (s := answer voidResponse (loadPoly p s)) hs hp
  exact ⟨_, rs, u, exec_setpoly hs hp, hrun, hu.trans hreturn⟩

/-! ### The two printed catalogue polynomials -/

theorem stepTimes_add (poly v : Word) (m n : Nat) :
    stepTimes poly (m + n) v = stepTimes poly n (stepTimes poly m v) := by
  rw [stepTimes_eq_iterate, stepTimes_eq_iterate, stepTimes_eq_iterate, Nat.add_comm, Function.iterate_add_apply]

theorem bitlen_g7 : bitlen 0x41#32 = 7 := by decide

theorem bitlen_g8 : bitlen 0x8E#32 = 8 := by decide

/-- The way round the orbit of G7, computed in three parts. -/
theorem stepTimes_g7_127 : stepTimes 0x41#32 127 0x7F#32 = 0x7F#32 := by
  have to51 : stepTimes 0x41#32 51 0x7F#32 = 0x1B#32 := by simp [stepTimes, stepWord, shiftXor]
  have to102 : stepTimes 0x41#32 51 0x1B#32 = 0x23#32 := by simp [stepTimes, stepWord, shiftXor]
  have to127 : stepTimes 0x41#32 25 0x23#32 = 0x7F#32 := by simp [stepTimes, stepWord, shiftXor]
  rw [show 127 = 51 + 51 + 25 by rfl, stepTimes_add, stepTimes_add, to51, to102, to127]

theorem stepTimes_g8_15 : stepTimes 0x8E#32 15 0xFF#32 = 0xE6#32 := by simp [stepTimes, stepWord, shiftXor]

theorem stepTimes_g8_51 : stepTimes 0x8E#32 51 0xFF#32 = 0x97#32 := by simp [stepTimes, stepWord, shiftXor]

theorem stepTimes_g8_85 : stepTimes 0x8E#32 85 0xFF#32 = 0xDF#32 := by
  have from51 : stepTimes 0x8E#32 34 0x97#32 = 0xDF#32 := by simp [stepTimes, stepWord, shiftXor]
  rw [show 85 = 51 + 34 by rfl, stepTimes_add, stepTimes_g8_51, from51]

/-- The way round the orbit of G8, computed in five parts. -/
theorem stepTimes_g8_255 : stepTimes 0x8E#32 255 0xFF#32 = 0xFF#32 := by
  have to136 : stepTimes 0x8E#32 51 0xDF#32 = 0x35#32 := by simp [stepTimes, stepWord, shiftXor]
  have to170 : stepTimes 0x8E#32 34 0x35#32 = 0x20#32 := by simp [stepTimes, stepWord, shiftXor]
  have to221 : stepTimes 0x8E#32 51 0x20#32 = 0xA2#32 := by simp [stepTimes, stepWord, shiftXor]
  have to255 : stepTimes 0x8E#32 34 0xA2#32 = 0xFF#32 := by simp [stepTimes, stepWord, shiftXor]
  rw [show 255 = 85 + 51 + 34 + 51 + 34 by rfl, stepTimes_add, stepTimes_add, stepTimes_add, stepTimes_add,
    stepTimes_g8_85, to136, to170, to221, to255]

theorem prime_dvd_255 {q : Nat} (hq : q.Prime) (h : q ∣ 255) : q = 3 ∨ q = 5 ∨ q = 17 := by
  rw [show 255 = 3 * 5 * 17 by rfl, hq.dvd_mul, hq.dvd_mul, Nat.prime_dvd_prime_iff_eq hq (by norm_num),
    Nat.prime_dvd_prime_iff_eq hq (by norm_num), Nat.prime_dvd_prime_iff_eq hq (by norm_num), or_assoc] at h
  exact h

/-- 127 is a prime, so only the first step could come too early. -/
theorem maximalLength_g7 : MaximalLength 0x41#32 := by
  refine maximalLength_of_prime_divisors (by decide) (bitlen_g7 ▸ rfl) (bitlen_g7 ▸ rfl) stepTimes_g7_127
    fun q hq hdvd => ?_
  obtain rfl := (Nat.prime_dvd_prime_iff_eq hq (by norm_num)).1 hdvd
  decide

theorem maximalLength_g8 : MaximalLength 0x8E#32 := by
  refine maximalLength_of_prime_divisors (by decide) (bitlen_g8 ▸ rfl) (bitlen_g8 ▸ rfl) stepTimes_g8_255
    fun q hq hdvd => ?_
  obtain rfl | rfl | rfl := prime_dvd_255 hq hdvd
  · exact stepTimes_g8_85.trans_ne (by decide)
  · exact stepTimes_g8_51.trans_ne (by decide)
  · exact stepTimes_g8_15.trans_ne (by decide)

end Sys2Proof.Machine

open Sys2Proof Sys2Proof.Machine

/-- Settles O25: the period of each polynomial is maximal, and SETPOLY and the STEP commands run through it. -/
theorem cataloguePeriods : Obligations.CataloguePeriods :=
  ⟨⟨bitlen_g7, maximalLength_g7⟩, ⟨bitlen_g8, maximalLength_g8⟩,
    fun _ => runAll_setpoly_period maximalLength_g7, fun _ => runAll_setpoly_period maximalLength_g8⟩
end

section
/-! The steps that run no command: idle, an illegal word, a word presented to a Faulted block, reset (R235, R73, R224,
R250); and from these, that a Faulted block stays as it is until a reset (R224). -/

namespace Sys2Proof.Machine

/-- A running block takes an illegal word off the host's list and latches IllegalCommand. -/
theorem step_of_illegal {s : State} {w : CommandWord} {rest : List HostAction} (hh : s.host = .command w :: rest)
    (hf : s.fault = 0#3) (hw : (decode w).toOption = none) :
    step s = .next (latchFault .illegalCommand (withHost rest s)) := by
  rw [step_of_action hh]
  exact (presentWord_of_running (s := withHost rest s) hf w).trans (acceptWord_of_toOption_none hf hw)

/-- A Faulted block takes a presented word off the host's list and does nothing with it. -/
theorem step_of_command_of_faulted {s : State} {w : CommandWord} {rest : List HostAction}
    (hh : s.host = .command w :: rest) (hf : s.fault ≠ 0#3) : step s = .next (endPulse (withHost rest s)) := by
  rw [step_of_action hh]
  exact presentWord_of_faulted (s := withHost rest s) hf w

theorem step_of_reset {s : State} {rest : List HostAction} (hh : s.host = .reset :: rest) :
    step s = .next (clearFields (withHost rest s)) := step_of_action hh

/-- Whatever the host does to a Faulted block, except reset, the step ends the response pulse and no more. -/
theorem step_of_faulted {s : State} (hf : s.fault ≠ 0#3) (hr : s.host[0]? ≠ some .reset) :
    step s = .next (endPulse (withHost s.host.tail s)) := by
  match hh : s.host with
  | [] =>
    -- the tail of an empty list is the list itself
    rw [step_of_idle hh, List.tail_nil, ← hh, withHost_self]
  | .command w :: rest => exact step_of_command_of_faulted hh hf
  | .reset :: rest => exact absurd (congrArg (·[0]?) hh) hr

/-- One step or more of a Faulted block without a reset. -/
theorem run_of_faulted (n : Nat) {s : State} (hf : s.fault ≠ 0#3) (hr : ∀ k, k < n + 1 → s.host[k]? ≠ some .reset) :
    Host.Core.run Sys2Proof.core (n + 1) s = .next (endPulse (withHost (s.host.drop (n + 1)) s)) := by
  induction n generalizing s with
  | zero => rw [run_of_step (step_of_faulted hf (hr 0 Nat.one_pos)), List.drop_one]; rfl
  | succ n ih =>
    have hr' : ∀ k, k < n + 1 → s.host.tail[k]? ≠ some .reset := fun k hk => by
      rw [List.getElem?_tail]
      exact hr (k + 1) (Nat.succ_lt_succ hk)
    rw [run_of_step (step_of_faulted hf (hr 0 (Nat.succ_pos _))),
      ih (s := endPulse (withHost s.host.tail s)) hf hr', endPulse_host, withHost_host, List.drop_tail]
    rfl

end Sys2Proof.Machine

open Sys2Proof Sys2Proof.Machine

/-- Settles O7. -/
theorem stepOtherwise : Obligations.StepOtherwise :=
  ⟨fun _ => step_of_idle, fun _ _ _ => step_of_illegal, fun _ _ _ => step_of_command_of_faulted,
    fun _ _ => step_of_reset⟩

/-- Settles O48: every step of a Faulted block before a reset leaves it Faulted, with the same fields. -/
theorem faultedIsAbsorbing : Obligations.FaultedIsAbsorbing := by
  refine ⟨fun s i hf => exec_of_faulted hf i, fun s n hf hr => ?_,
    fun s rest _ hh => ⟨_, step_of_reset hh, rfl⟩, fun s busy rst hf => cmdReady_of_faulted hf rst⟩
  cases n with
  | zero => exact ⟨s, rfl, ⟨rfl, rfl, rfl, rfl, rfl, rfl⟩, fun h => absurd h (Nat.lt_irrefl 0)⟩
  | succ n => exact ⟨_, run_of_faulted n hf hr, ⟨rfl, rfl, rfl, rfl, rfl, rfl⟩, fun _ => rfl⟩
end

section
/-! Which word raises which fault (R220), as one relation with a case per row of the rule's table; and from it the
causes, the order of the tests (R226) and what completes (R229). -/

namespace Sys2Proof.Machine

/-- The faults a command raises on a running block (the first three rows of R220). -/
inductive CommandFault (s : State) : Instr → FaultCause → Prop where
  | zeroPolynomial : CommandFault s (.setpoly 0#32) .invalidPolynomial
  | unconfigured {i : Instr} : s.poly = 0#32 → NeedsConfigured i → CommandFault s i .unconfiguredUse
  | zeroState {v : Word} : s.poly ≠ 0#32 → v &&& s.mask = 0#32 → CommandFault s (.setstate v) .invalidState

/-- The faults a word raises on a running block (R220). -/
inductive WordFault (s : State) (w : CommandWord) : FaultCause → Prop where
  | command {i : Instr} {c : FaultCause} : decode w = .ok i → CommandFault s i c → WordFault s w c
  | illegal : (decode w).toOption = none → WordFault s w .illegalCommand

/-! ### The relation and the machine -/

theorem exec_of_commandFault {s : State} (hf : s.fault = 0#3) {i : Instr} {c : FaultCause} (h : CommandFault s i c) :
    exec i s = .next (latchFault c s) := by
  cases h with
  | zeroPolynomial => exact exec_setpoly_zero hf
  | unconfigured hp hi => exact exec_of_unconfigured hf hp hi
  | zeroState hp hv => exact exec_setstate_zero hf hp hv

/-- SETSTATE loads the masked operand, or faults and keeps the register. -/
theorem exec_setstate_next {v : Word} {s t : State} (h : exec (.setstate v) s = .next t) :
    t = answer voidResponse (loadState (v &&& s.mask) s) ∨
      (s.poly ≠ 0#32 ∧ v &&& s.mask = 0#32 ∧ t = latchFault .invalidState s) ∨
      (s.poly = 0#32 ∧ t = latchFault .unconfiguredUse s) := by
  obtain ⟨hp, hk⟩ | ⟨hp, hk⟩ := whenConfigured_next (whenRunning_next h).2
  · split at hk
    · exact .inr (.inl ⟨hp, ‹_›, raiseFault_next hk⟩)
    · exact .inl (respond_next hk)
  · exact .inr (.inr ⟨hp, hk⟩)

/-- A command that leaves a fault is in a row of R220. -/
theorem commandFault_of_exec {i : Instr} {s t : State} (h : exec i s = .next t) (ht : t.fault ≠ 0#3) :
    ∃ c, CommandFault s i c ∧ t = latchFault c s := by
  obtain ⟨hf, -⟩ := exec_next_cases h
  have read : IsAccessor i → ∃ c, CommandFault s i c ∧ t = latchFault c s := fun hi => by
    obtain ⟨-, -, -, -, -, hsame⟩ := exec_accessor_sameFields hi h
    exact absurd (hsame.trans hf) ht
  have write : ∀ {r v : Word}, whenRunning s (whenConfigured s (respond r (loadState v s))) = .next t →
      NeedsConfigured i → ∃ c, CommandFault s i c ∧ t = latchFault c s := fun hk hi => by
    obtain ⟨-, hk⟩ | ⟨hp, rfl⟩ := whenConfigured_next (whenRunning_next hk).2
    · rw [respond_next hk] at ht
      exact absurd hf ht
    · exact ⟨_, .unconfigured hp hi, rfl⟩
  cases i with
  | setpoly p =>
    obtain ⟨-, rfl⟩ | ⟨rfl, rfl⟩ := exec_setpoly_next h
    · exact absurd hf ht
    · exact ⟨_, .zeroPolynomial, rfl⟩
  | setstate v =>
    obtain rfl | ⟨hp, hv, rfl⟩ | ⟨hp, rfl⟩ := exec_setstate_next h
    · exact absurd hf ht
    · exact ⟨_, .zeroState hp hv, rfl⟩
    · exact ⟨_, .unconfigured hp trivial, rfl⟩
  | step => exact write h trivial
  | syncf x => exact write h trivial
  | syncb x => exact write h trivial
  | crcin b => exact write h trivial
  | crcout => exact write h trivial
  | rdstate => exact read (.inl rfl)
  | rdpoly => exact read (.inr (.inl rfl))
  | rdmask => exact read (.inr (.inr (.inl rfl)))
  | rdhbit => exact read (.inr (.inr (.inr (.inl rfl))))
  | rddegr => exact read (.inr (.inr (.inr (.inr rfl))))

theorem acceptWord_of_wordFault {s : State} (hf : s.fault = 0#3) {w : CommandWord} {c : FaultCause}
    (h : WordFault s w c) : acceptWord w s = .next (latchFault c s) := by
  cases h with
  | command hw hi => exact (acceptWord_of_decode hw s).trans (exec_of_commandFault hf hi)
  | illegal hw => exact acceptWord_of_toOption_none hf hw

/-- A word that leaves a fault is in a row of R220. -/
theorem wordFault_of_acceptWord {w : CommandWord} {s t : State} (h : acceptWord w s = .next t) (ht : t.fault ≠ 0#3) :
    ∃ c, WordFault s w c ∧ t = latchFault c s := by
  obtain ⟨i, hw, hi⟩ | ⟨e, hw, -, rfl⟩ := acceptWord_next_cases h
  · obtain ⟨c, hc, rfl⟩ := commandFault_of_exec hi ht
    exact ⟨c, .command hw hc, rfl⟩
  · exact ⟨_, .illegal (toOption_decode_eq_none_iff.2 ⟨e, hw⟩), rfl⟩

section Accepted

variable {w : CommandWord} {s t : State} (hf : s.fault = 0#3) (h : acceptWord w s = .next t)
include hf h

/-- The code that a word leaves says which row of R220 it is in. -/
theorem fault_eq_causeCode_iff (c : FaultCause) : t.fault = causeCode c ↔ WordFault s w c := by
  constructor
  · intro hcode
    obtain ⟨c', hc', rfl⟩ := wordFault_of_acceptWord h (hcode ▸ causeCode_ne_zero c)
    rwa [← causeCode_injective hcode]
  · intro hc
    obtain rfl : latchFault c s = t := by simpa [acceptWord_of_wordFault hf hc] using h
    rfl

theorem fault_ne_zero_iff : t.fault ≠ 0#3 ↔ ∃ c, WordFault s w c := by
  constructor
  · intro ht
    obtain ⟨c, hc, -⟩ := wordFault_of_acceptWord h ht
    exact ⟨c, hc⟩
  · rintro ⟨c, hc⟩
    rw [(fault_eq_causeCode_iff hf h c).2 hc]
    exact causeCode_ne_zero c

end Accepted

/-- Codes 5, 6 and 7 are no fault's (R220). -/
theorem acceptWord_faultCodeKnown {w : CommandWord} {s t : State} (h : acceptWord w s = .next t) :
    FaultCodeKnown t := by
  by_cases ht : t.fault = 0#3
  · simp [ht]
  · obtain ⟨c, -, rfl⟩ := wordFault_of_acceptWord h ht
    exact causeCode_le c

/-! ### The rows of R220 -/

theorem needsConfigured_iff (i : Instr) : NeedsConfigured i ↔
    (∃ v, i = .setstate v) ∨ i = .step ∨ (∃ x, i = .syncf x) ∨ (∃ x, i = .syncb x) ∨ (∃ b, i = .crcin b) ∨
      i = .crcout := by
  cases i <;> simp [NeedsConfigured]

variable {w : CommandWord} {s : State}

theorem wordFault_invalidPolynomial_iff :
    WordFault s w .invalidPolynomial ↔ decode w = .ok (.setpoly 0#32) := by
  constructor
  · rintro ⟨hw, ⟨⟩⟩
    exact hw
  · exact fun hw => .command hw .zeroPolynomial

theorem wordFault_unconfiguredUse_iff :
    WordFault s w .unconfiguredUse ↔ s.poly = 0#32 ∧ ∃ i, decode w = .ok i ∧ NeedsConfigured i := by
  constructor
  · rintro (⟨hw, _ | ⟨hp, hi⟩⟩)
    exact ⟨hp, _, hw, hi⟩
  · exact fun ⟨hp, _, hw, hi⟩ => .command hw (.unconfigured hp hi)

theorem wordFault_invalidState_iff :
    WordFault s w .invalidState ↔ s.poly ≠ 0#32 ∧ ∃ v, decode w = .ok (.setstate v) ∧ v &&& s.mask = 0#32 := by
  constructor
  · rintro (⟨hw, _ | _ | ⟨hp, hv⟩⟩)
    exact ⟨hp, _, hw, hv⟩
  · exact fun ⟨hp, _, hw, hv⟩ => .command hw (.zeroState hp hv)

theorem wordFault_illegalCommand_iff : WordFault s w .illegalCommand ↔ (decode w).toOption = none := by
  constructor
  · rintro (⟨-, ⟨⟩⟩ | hw)
    exact hw
  · exact .illegal

/-- The words of the six commands that need a Configured block. -/
theorem exists_needsConfigured_iff : (∃ i, decode w = .ok i ∧ NeedsConfigured i) ↔
    (∃ v, decode w = .ok (.setstate v)) ∨ decode w = .ok .step ∨ (∃ x, decode w = .ok (.syncf x)) ∨
      (∃ x, decode w = .ok (.syncb x)) ∨ (∃ b, decode w = .ok (.crcin b)) ∨ decode w = .ok .crcout := by
  cases decode w with
  | error e => simp
  | ok i => simp [needsConfigured_iff]

end Sys2Proof.Machine

open Sys2Proof Sys2Proof.Machine

/-- Settles O46: the code says the row of R220, and each row says its words. -/
theorem faultCauses : Obligations.FaultCauses := by
  intro w s hs
  obtain ⟨t, ht⟩ := acceptWord_of_running hs w
  have code := fault_eq_causeCode_iff hs ht
  have hknown : t.fault.toNat ≤ 4 := acceptWord_faultCodeKnown ht
  refine ⟨t, ht, (code .invalidPolynomial).trans wordFault_invalidPolynomial_iff,
    (code .unconfiguredUse).trans ?_, (code .invalidState).trans wordFault_invalidState_iff,
    (code .illegalCommand).trans wordFault_illegalCommand_iff, by bv_omega, by bv_omega, by bv_omega, fun hne => ?_⟩
  · rw [wordFault_unconfiguredUse_iff, exists_needsConfigured_iff]
  · obtain ⟨c, -, rfl⟩ := wordFault_of_acceptWord ht hne
    rfl

/-- Settles O47. -/
theorem faultEntry : Obligations.FaultEntry := by
  intro w s t h ht
  obtain ⟨c, -, rfl⟩ := wordFault_of_acceptWord h ht
  exact ⟨rfl, rfl, rfl, rfl, rfl, rfl, isFaulted_latchFault c s, c, rfl, rfl⟩

/-- Settles O49: each condition is a row of R220 as it stands. -/
theorem faultPriority : Obligations.FaultPriority := fun _ hs =>
  ⟨fun _ => acceptWord_of_toOption_none hs, exec_setpoly_zero hs,
    fun hp i hi => exec_of_unconfigured hs hp ((needsConfigured_iff i).2 hi), fun hp _ => exec_setstate_zero hs hp⟩

/-- Settles O50: what is listed is in no row of R220, so it does not fault, and then it responds. -/
theorem everyLegalCommandCompletes : Obligations.EveryLegalCommandCompletes := by
  intro s i hs hlegal
  obtain ⟨t, ht⟩ := exec_of_running hs i
  have hfault : t.fault = 0#3 := by
    by_contra hne
    obtain ⟨c, hc, -⟩ := commandFault_of_exec ht hne
    cases hc with
    | zeroPolynomial => simp at hlegal
    | unconfigured hp hi =>
      -- on an Unconfigured block only the accessors and SETPOLY are listed
      simp only [hp, ne_eq, not_true_eq_false, false_and, or_false] at hlegal
      obtain rfl | rfl | rfl | rfl | rfl | ⟨p, rfl, -⟩ := hlegal <;> exact hi
    | zeroState hp hv => simp [hv] at hlegal
  exact ⟨t, ht, hfault, (exec_rsp_isSome_iff ht).2 hfault⟩
end

section
/-! The logical states of R233 by the two fields they are conditions on, and what an accepted word makes of them. -/

namespace Sys2Proof.Machine

theorem logical_eq_faulted_iff (s : State) : logical s = .faulted ↔ s.fault ≠ 0#3 := by
  rw [← isFaulted_iff, logical]
  cases isFaulted s <;> cases isConfigured s <;> simp

theorem logical_eq_configured_iff (s : State) : logical s = .configured ↔ s.fault = 0#3 ∧ s.poly ≠ 0#32 := by
  rw [← isFaulted_eq_false_iff, ← isConfigured_iff, logical]
  cases isFaulted s <;> cases isConfigured s <;> simp

theorem logical_eq_unconfigured_iff (s : State) : logical s = .unconfigured ↔ s.fault = 0#3 ∧ s.poly = 0#32 := by
  rw [← isFaulted_eq_false_iff, ← isConfigured_eq_false_iff, logical]
  cases isFaulted s <;> cases isConfigured s <;> simp

/-- No command empties `poly`. -/
theorem Completion.poly_ne_zero {s u : State} (h : Completion s u) (hp : s.poly ≠ 0#32) : u.poly ≠ 0#32 := by
  cases h with
  | unchanged => exact hp
  | register v _ => exact hp
  | configuration p hp0 => exact hp0

/-- An accepted word that does not fault ran a command that completed (R226). -/
theorem acceptWord_completes {w : CommandWord} {s t : State} (h : acceptWord w s = .next t) (ht : t.fault = 0#3) :
    ∃ i, decode w = .ok i ∧ exec i s = .next t := by
  obtain hi | ⟨e, -, -, hfault⟩ := acceptWord_next_cases h
  · exact hi
  · exact absurd hfault (ne_latchFault_of_running ht _)

/-- The words of the accessors. -/
theorem exists_accessor_iff {w : CommandWord} : (∃ i, decode w = .ok i ∧ IsAccessor i) ↔
    decode w = .ok .rdstate ∨ decode w = .ok .rdpoly ∨ decode w = .ok .rdmask ∨ decode w = .ok .rdhbit ∨
      decode w = .ok .rddegr := by
  simp only [IsAccessor, and_or_left, exists_or, exists_eq_right]

/-- Every command is SETPOLY, one of the six others that write, or an accessor. -/
theorem instr_cases (i : Instr) : (∃ p, i = .setpoly p) ∨ NeedsConfigured i ∨ IsAccessor i := by
  cases i <;> simp [NeedsConfigured, IsAccessor]

/-- What a command that completes on an Unconfigured block is. -/
theorem exec_next_of_unconfigured {i : Instr} {s t : State} (hp : s.poly = 0#32) (h : exec i s = .next t)
    (ht : t.fault = 0#3) : (∃ p, p ≠ 0#32 ∧ i = .setpoly p ∧ t.poly = p) ∨ (IsAccessor i ∧ t.poly = 0#32) := by
  obtain ⟨p, rfl⟩ | hi | hi := instr_cases i
  · obtain ⟨hp0, rfl⟩ | ⟨-, hfault⟩ := exec_setpoly_next h
    · exact .inl ⟨p, hp0, rfl, rfl⟩
    · exact absurd hfault (ne_latchFault_of_running ht _)
  · obtain ⟨hf, -⟩ := exec_next_cases h
    have hfault : t = latchFault .unconfiguredUse s := by simpa [exec_of_unconfigured hf hp hi] using h.symm
    exact absurd hfault (ne_latchFault_of_running ht _)
  · obtain ⟨-, hpoly, -⟩ := exec_accessor_sameFields hi h
    exact .inr ⟨hi, hpoly.trans hp⟩

section Accepted

variable {w : CommandWord} {s t : State} (hf : s.fault = 0#3) (h : acceptWord w s = .next t)
include hf h

/-- Exactly a non-zero SETPOLY leads from Unconfigured to Configured (R233). -/
theorem logical_configured_iff_of_unconfigured (hp : s.poly = 0#32) :
    logical t = .configured ↔ ∃ p, p ≠ 0#32 ∧ decode w = .ok (.setpoly p) := by
  rw [logical_eq_configured_iff]
  constructor
  · rintro ⟨ht, htp⟩
    obtain ⟨i, hw, hi⟩ := acceptWord_completes h ht
    obtain ⟨p, hp0, rfl, -⟩ | ⟨-, hpoly⟩ := exec_next_of_unconfigured hp hi ht
    · exact ⟨p, hp0, hw⟩
    · exact absurd hpoly htp
  · rintro ⟨p, hp0, hw⟩
    rw [acceptWord_of_decode hw, exec_setpoly hf hp0] at h
    cases h
    exact ⟨hf, hp0⟩

/-- Exactly the accessors stay in Unconfigured (R233). -/
theorem logical_unconfigured_iff_of_unconfigured (hp : s.poly = 0#32) :
    logical t = .unconfigured ↔ ∃ i, decode w = .ok i ∧ IsAccessor i := by
  rw [logical_eq_unconfigured_iff]
  constructor
  · rintro ⟨ht, htp⟩
    obtain ⟨i, hw, hi⟩ := acceptWord_completes h ht
    obtain ⟨p, hp0, -, rfl⟩ | ⟨hacc, -⟩ := exec_next_of_unconfigured hp hi ht
    · exact absurd htp hp0
    · exact ⟨i, hw, hacc⟩
  · rintro ⟨i, hw, hi⟩
    obtain ⟨r, hexec⟩ := exec_accessor hi hf
    rw [acceptWord_of_decode hw, hexec] at h
    cases h
    exact ⟨hf, hp⟩

/-- On a Configured block R220 leaves three kinds of word that fault (R233). -/
theorem logical_faulted_iff_of_configured (hp : s.poly ≠ 0#32) :
    logical t = .faulted ↔ (decode w).toOption = none ∨ decode w = .ok (.setpoly 0#32) ∨
      ∃ v, decode w = .ok (.setstate v) ∧ v &&& s.mask = 0#32 := by
  rw [logical_eq_faulted_iff, fault_ne_zero_iff hf h]
  constructor
  · rintro ⟨c, hc⟩
    cases c with
    | invalidPolynomial => exact .inr (.inl (wordFault_invalidPolynomial_iff.1 hc))
    | unconfiguredUse => exact absurd (wordFault_unconfiguredUse_iff.1 hc).1 hp
    | invalidState => exact .inr (.inr (wordFault_invalidState_iff.1 hc).2)
    | illegalCommand => exact .inl (wordFault_illegalCommand_iff.1 hc)
  · rintro (hw | hw | hv)
    · exact ⟨_, wordFault_illegalCommand_iff.2 hw⟩
    · exact ⟨_, wordFault_invalidPolynomial_iff.2 hw⟩
    · exact ⟨_, wordFault_invalidState_iff.2 ⟨hp, hv⟩⟩

end Accepted

/-- No word empties `poly`, so none leads from Configured to Unconfigured (R233). -/
theorem acceptWord_poly_ne_zero {w : CommandWord} {s t : State} (h : acceptWord w s = .next t) (hp : s.poly ≠ 0#32) :
    t.poly ≠ 0#32 := by
  obtain ⟨i, -, hi⟩ | ⟨e, -, -, rfl⟩ := acceptWord_next_cases h
  · obtain ⟨-, ⟨c, rfl⟩ | ⟨v, u, hu, rfl⟩⟩ := exec_next_cases hi
    · exact hp
    · exact hu.poly_ne_zero hp
  · exact hp

end Sys2Proof.Machine

open Sys2Proof Sys2Proof.Machine

/-- Settles O51: what completes on an Unconfigured block is known, and on a Configured block R220 says what does not. -/
theorem logicalStateChanges : Obligations.LogicalStateChanges := by
  intro w s hs
  obtain ⟨t, ht⟩ := acceptWord_of_running hs w
  refine ⟨t, ht, fun hp => ⟨(logical_eq_unconfigured_iff s).2 ⟨hs, hp⟩,
      logical_configured_iff_of_unconfigured hs ht hp,
      (logical_unconfigured_iff_of_unconfigured hs ht hp).trans exists_accessor_iff⟩,
    fun hp => ⟨(logical_eq_configured_iff s).2 ⟨hs, hp⟩, fun hlog => ?_,
      logical_faulted_iff_of_configured hs ht hp⟩⟩
  obtain ⟨-, htp⟩ := (logical_eq_unconfigured_iff t).1 hlog
  exact acceptWord_poly_ne_zero ht hp htp
end

section
/-! The reset edge (R250), and the first one of a block with power applied (R252): the edges before it, the block it
leaves, and what the host's obligations give of a list of sampled inputs. -/

namespace Sys2Proof.Machine

theorem logical_clearFields (s : State) : logical (clearFields s) = .unconfigured :=
  (logical_eq_unconfigured_iff _).2 ⟨rfl, rfl⟩

theorem cmdReady_of_rst (c : Clocked) : cmdReady true c = false := rfl

theorem acceptsAt_of_rst {i : PortsIn} (h : i.rst = true) (c : Clocked) : acceptsAt i c = false := by
  rw [acceptsAt, h, cmdReady_of_rst, Bool.and_false]

/-- Without a reset edge the block stays unspecified, one instant later at each edge. -/
theorem poweredEdges_of_not_rst {is : List PortsIn} (hrst : ∀ i ∈ is, i.rst = false) (n : Nat) :
    poweredEdges is (.unreset n) = .unreset (n + is.length) := by
  induction is generalizing n with
  | nil => rfl
  | cons i is ih =>
    obtain ⟨hi, his⟩ := List.forall_mem_cons.1 hrst
    rw [poweredEdges_cons, poweredEdge_of_not_rst hi, ih his, List.length_cons, Nat.add_assoc, Nat.add_comm 1]

/-- From the first reset edge on, the block is the clocked block run from its reset values. -/
theorem poweredEdges_first_reset {pre : List PortsIn} {r : PortsIn} (hpre : ∀ i ∈ pre, i.rst = false)
    (hr : r.rst = true) (post : List PortsIn) (n : Nat) :
    poweredEdges (pre ++ r :: post) (.unreset n) = .initialised (edges post ⟨State.reset, none⟩) := by
  rw [poweredEdges_append, poweredEdges_of_not_rst hpre, poweredEdges_cons, poweredEdge_of_rst hr,
    poweredEdges_initialised]

theorem cmdValid_of_poweredAccepts {i : PortsIn} {p : Powered} (h : poweredAccepts i p = true) :
    i.cmdValid = true := by
  simp only [poweredAccepts, Bool.and_eq_true] at h
  obtain ⟨⟨-, hvalid⟩, -⟩ := h
  exact hvalid

/-- A host that keeps R252's obligations presents a command only after a reset edge. -/
theorem exists_reset_before_cmdValid {is : List PortsIn} {k : Nat} {i : PortsIn} (hobeys : obeysPowerUp is = true)
    (hk : is[k]? = some i) (hvalid : i.cmdValid = true) : ∃ j r, j < k ∧ is[j]? = some r ∧ r.rst = true := by
  induction is generalizing k with
  | nil => simp at hk
  | cons a is ih =>
    obtain ⟨ha, hrest⟩ := (obeysPowerUp_cons a is).1 hobeys
    cases k with
    | zero =>
      -- the head itself presents nothing
      obtain rfl : a = i := by simpa using hk
      exact absurd hvalid (Bool.eq_false_iff.1 ha)
    | succ k =>
      obtain hrst | hrest := hrest
      · exact ⟨0, a, k.succ_pos, rfl, hrst⟩
      · obtain ⟨j, r, hj, hr, hrst⟩ := ih hrest hk
        exact ⟨j + 1, r, Nat.succ_lt_succ hj, hr, hrst⟩

/-- Presenting no command up to and at a reset edge keeps R252's obligations, whatever follows. -/
theorem obeysPowerUp_of_reset {pre : List PortsIn} {r : PortsIn} (hpre : ∀ i ∈ pre, i.cmdValid = false)
    (hr : r.rst = true) (hvalid : r.cmdValid = false) (post : List PortsIn) :
    obeysPowerUp (pre ++ r :: post) = true := by
  induction pre with
  | nil => exact (obeysPowerUp_cons r post).2 ⟨hvalid, .inl hr⟩
  | cons i pre ih =>
    obtain ⟨hi, hpre⟩ := List.forall_mem_cons.1 hpre
    exact (obeysPowerUp_cons i _).2 ⟨hi, .inr (ih hpre)⟩

end Sys2Proof.Machine

open Sys2Proof Sys2Proof.Machine

/-- Settles O12: a reset edge leaves the reset fields with nothing in progress, and the host's reset action leaves the
same fields. -/
theorem resetEvent : Obligations.ResetEvent := by
  refine ⟨fun i c hrst => ?_, fun s rest hh => ?_⟩
  · rw [edge_of_rst hrst]
    exact ⟨acceptsAt_of_rst hrst c, cmdReady_of_rst c, rfl, rfl, rfl, rfl, rfl, rfl, rfl, rfl, logical_clearFields _,
      cmdReady_of_idle rfl⟩
  · exact ⟨_, step_of_reset hh, ⟨rfl, rfl, rfl, rfl, rfl, rfl⟩, rfl, logical_clearFields _⟩

/-- Settles O60: the edges of the block before, at and after the first reset, and the host's two obligations by
induction on what it drives. -/
theorem powerUpThenReset : Obligations.PowerUpThenReset := by
  refine ⟨fun n is hrst => poweredEdges_of_not_rst hrst n, fun n pre post r hpre hr => ?_,
    fun n k is i hobeys hk hacc => exists_reset_before_cmdValid hobeys hk (cmdValid_of_poweredAccepts hacc),
    fun n pre post r i hpre hr hvalid hi hcmd => ?_, fun n h hfirst hne => ?_⟩
  · rw [poweredEdges_first_reset hpre hr, poweredEdges_first_reset hpre hr]
    exact ⟨rfl, rfl, logical_clearFields State.reset⟩
  · refine ⟨obeysPowerUp_of_reset (fun j hj => (hpre j hj).2) hr hvalid _, ?_⟩
    rw [poweredEdges_first_reset (fun j hj => (hpre j hj).1) hr, poweredAccepts_initialised, acceptsAt_iff]
    exact ⟨hi, hcmd, rfl, rfl⟩
  · obtain ⟨rest, rfl⟩ := (resetComesFirst_cases hfirst).resolve_left hne
    exact ⟨rest, rfl, step_of_reset rfl⟩
end

section
/-! The zero state (R255): the three commands that answer 0 and leave it, and the ways out of it. -/

namespace Sys2Proof.Machine

/-- Bit 0 is 0 and the data bit 1, so the feedback is all that enters the empty register. -/
theorem crcinWord_zero_true (poly : Word) : crcinWord poly 0#32 true = poly :=
  (crcinWord_of_feedback poly (by decide)).trans BitVec.zero_xor

/-- The commands for which the zero state is absorbing (R255). -/
def KeepsZero (i : Instr) : Prop := i = .step ∨ i = .crcout ∨ i = .crcin false

/-- From the zero state each of the three answers 0 and writes no field. -/
theorem exec_of_zero_state {i : Instr} (hi : KeepsZero i) {s : State} (hf : s.fault = 0#3) (hp : s.poly ≠ 0#32)
    (hzero : s.state = 0#32) : exec i s = .next (answer 0#32 s) := by
  have hself : loadState 0#32 s = s := by rw [← hzero, loadState_self]
  have hexec : exec i s = .next (answer 0#32 (loadState 0#32 s)) := by
    obtain rfl | rfl | rfl := hi
    · exact exec_step_of_eq hf hp hzero (stepWord_zero _) bitResponse_false
    · exact exec_crcout_of_eq hf hp hzero BitVec.zero_ushiftRight bitResponse_false
    · exact exec_crcin_of_eq hf hp hzero ((crcinWord_false _ _).trans (stepWord_zero _))
  rwa [hself] at hexec

/-- So any number of the three, in any order, answers only 0 and stays in the zero state. -/
theorem runAll_of_zero_state {is : List Instr} (his : ∀ i ∈ is, KeepsZero i) {s : State} (hf : s.fault = 0#3)
    (hp : s.poly ≠ 0#32) (hzero : s.state = 0#32) :
    ∃ u, runAll is s = some (List.replicate is.length 0#32, u) ∧ u.state = 0#32 := by
  induction is generalizing s with
  | nil => exact ⟨s, rfl, hzero⟩
  | cons i is ih =>
    obtain ⟨hi, his⟩ := List.forall_mem_cons.1 his
    obtain ⟨u, hrun, hu⟩ := ih his (s := answer 0#32 s) hf hp hzero
    refine ⟨u, ?_, hu⟩
    rw [runAll_cons (exec_of_zero_state hi hf hp hzero) rfl, hrun]
    rfl

end Sys2Proof.Machine

open Sys2Proof Sys2Proof.Machine

/-- Settles O55: one absorbed command at a time, and each way out by what its command writes to the register. -/
theorem zeroStateHazard : Obligations.ZeroStateHazard := by
  intro s ⟨hf, hp⟩ h hzero
  refine ⟨fun is his => runAll_of_zero_state his hf hp hzero, fun p hp0 => ⟨_, exec_setpoly hf hp0, ?_, ?_⟩,
    fun v hv => ⟨_, exec_setstate hf hp hv, rfl⟩,
    fun x hx => ⟨_, _, exec_syncf hf hp x, ?_, exec_syncb_of_inv h hp hf x, ?_⟩,
    ⟨_, exec_crcin_of_eq hf hp hzero (crcinWord_zero_true _), rfl⟩, hzero ▸ exec_rdstate hf⟩
  · rw [answer_degree, loadPoly_degree, toNat_bitlen_field]
    rfl
  · exact ones_ne_zero (bitlen_pos hp0) (bitlen_le p)
  · exact (syncfLoop_eq_zero_iff_masked h hp x).not.2 hx
  · exact (syncbResult_eq_zero_iff h hp x).not.2 hx
end
